-- ==== Sys2Proof/Word.lean ====
section
/-! DEFINITION. The words of the spec: u8, u32, the 64-bit command word and the nibble (R10, R11). -/

namespace Sys2Proof

/-- `u8` (R10): arithmetic on it is modulo 256, comparison is unsigned. -/
abbrev Byte := BitVec 8

/-- A 4-bit half of a byte (R15). -/
abbrev Nibble := BitVec 4

/-- `u32`: the argument field of a command word (R9, ARG_WIDTH). -/
abbrev Arg := BitVec 32

/-- `u64`: a command word (R9, CMD_WIDTH). -/
abbrev CmdWord := BitVec 64

end Sys2Proof
end

