-- ==== Sys2Proof/Config.lean ====
section
/-! DEFINITION. The fixed parameters of SPRITZ-256 (R8) and the values the spec leaves open: the free
ABSORBING bit and LATENCY. -/

namespace Sys2Proof.Config

/-- Update rounds of one whip inside shuffle (R8). Irreducible, so that no elaboration unrolls the rounds by itself;
`whipRounds_eq` gives the value. -/
@[irreducible] def whipRounds : Nat := 512

/-- Pairs one crush compares (R8). Irreducible as `whipRounds` is. -/
@[irreducible] def pairCount : Nat := 128

theorem whipRounds_eq : whipRounds = 512 := by unfold whipRounds; rfl

theorem pairCount_eq : pairCount = 128 := by unfold pairCount; rfl

/-- The nibble region's base: absorb_nibble swaps with `mem[128 + x]` (R8). -/
abbrev nibbleBase : Byte := 128

/-- What one whip adds to w (R8). -/
abbrev whipIncrement : Byte := 2

/-- FREE VALUE (U3, D21; log 3): what STATUS.ABSORBING reads on the n-th STATUS read, used only where BUSY = 1. -/
opaque busyAbsorbing : Nat → Bool

/-- The open parameter LATENCY (R9, R262, U4; log 12): the clock cycles of the n-th timed activity (a command, or the
hardware reset) of a run. Every value is finite (R261). No rule depends on it, so nothing in the model reads it. -/
opaque latency : Nat → Nat

end Sys2Proof.Config
end

