-- ==== Sys2Proof/Syntax.lean ====
section
/-! DEFINITION. The six commands (R76, R77), one constructor per row of spec/opcode_table.json. -/

namespace Sys2Proof

/-- A command. `n` is a Nat, as R77 has it; the range 0..2^32−1 that one command word can spell is checked in
WellFormed (log 11). -/
inductive Instr where
  /-- RESET (R170). -/
  | reset
  /-- ABSORB b (R130). -/
  | absorb (b : Byte)
  /-- ABSORB_STOP (R131). -/
  | absorbStop
  /-- ABSORB_NUMBER n (R132). -/
  | absorbNumber (n : Nat)
  /-- SQUEEZE n (R150). -/
  | squeeze (n : Nat)
  /-- SQUEEZE_XOR d (R151). -/
  | squeezeXor (d : Byte)
  deriving DecidableEq, Repr

end Sys2Proof
end

