-- ==== Sys2Proof/WellFormed.lean ====
section
/-! DEFINITION. The operand ranges of R77 and R81: what one command word can spell. -/

namespace Sys2Proof

/-- `n` fits the 32-bit argument field (R9, R77). A u8 operand is in range by its type. -/
def Instr.wellFormed : Instr → Bool
  | .reset => true
  | .absorb _ => true
  | .absorbStop => true
  | .absorbNumber n => decide (n < 2 ^ 32)
  | .squeeze n => decide (n < 2 ^ 32)
  | .squeezeXor _ => true

end Sys2Proof
end

