-- ==== Sys2Proof/Decode.lean ====
section
/-! DEFINITION. The command word's fields (R75), the decode function (R78), the encoder (R82) and the opcode table's
masks. -/

namespace Sys2Proof

/-- Why a word is illegal (R202). -/
inductive IllegalCode where
  /-- 1: the opcode field is not in the opcode table. -/
  | illegalOpcode
  /-- 2: a defined opcode with a must-be-zero bit set. -/
  | reservedBits
  deriving DecidableEq, Repr

/-- What `decode` answers (R78). -/
inductive Verdict where
  | legal (i : Instr)
  | illegal (code : IllegalCode)
  deriving DecidableEq, Repr

/-- The defined opcodes (R76). -/
inductive Opcode where
  | reset | absorb | absorbStop | absorbNumber | squeeze | squeezeXor
  deriving DecidableEq, Repr

/-- `op`, bits 63:56 (R75). -/
def opField (w : CmdWord) : Byte := w.extractLsb' 56 8

/-- `rsv`, bits 55:32: zero in every legal command (R75). -/
def rsvField (w : CmdWord) : BitVec 24 := w.extractLsb' 32 24

/-- `arg`, bits 31:0 (R75). -/
def argField (w : CmdWord) : Arg := w.extractLsb' 0 32

/-- `arg[7:0]` (R77). -/
def argByte (arg : Arg) : Byte := arg.extractLsb' 0 8

/-- `arg[31:8]`: must be zero where the operand is a u8 (R77). -/
def argAboveByte (arg : Arg) : BitVec 24 := arg.extractLsb' 8 24

/-- The opcode map read from the opcode field (R76). -/
def opcodeOf (op : Byte) : Option Opcode :=
  match op.toNat with
  | 0x01 => some .reset
  | 0x02 => some .absorb
  | 0x03 => some .absorbStop
  | 0x04 => some .absorbNumber
  | 0x05 => some .squeeze
  | 0x06 => some .squeezeXor
  | _ => none

/-- The opcode map written to the opcode field (R76). -/
def Opcode.value : Opcode → Byte
  | .reset => 0x01
  | .absorb => 0x02
  | .absorbStop => 0x03
  | .absorbNumber => 0x04
  | .squeeze => 0x05
  | .squeezeXor => 0x06

/-- Operand assembly and the must-be-zero bits of `arg` (R77). -/
def decodeArg (op : Opcode) (arg : Arg) : Verdict :=
  match op with
  | .reset => if arg = 0#32 then .legal .reset else .illegal .reservedBits
  | .absorb => if argAboveByte arg = 0#24 then .legal (.absorb (argByte arg)) else .illegal .reservedBits
  | .absorbStop => if arg = 0#32 then .legal .absorbStop else .illegal .reservedBits
  | .absorbNumber => .legal (.absorbNumber arg.toNat)
  | .squeeze => .legal (.squeeze arg.toNat)
  | .squeezeXor => if argAboveByte arg = 0#24 then .legal (.squeezeXor (argByte arg)) else .illegal .reservedBits

/-- `decode(word)`, total on every 64-bit word: the opcode is tested first, then `rsv`, then `arg` (R78, R203). -/
def decode (w : CmdWord) : Verdict :=
  match opcodeOf (opField w) with
  | none => .illegal .illegalOpcode
  | some op => if rsvField w = 0#24 then decodeArg op (argField w) else .illegal .reservedBits

/-- Format C with `rsv` zero (R75). -/
def formatC (op : Opcode) (arg : Arg) : CmdWord := op.value ++ 0#24 ++ arg

/-- The opcode of a command (R76). -/
def Instr.opcode : Instr → Opcode
  | .reset => .reset
  | .absorb _ => .absorb
  | .absorbStop => .absorbStop
  | .absorbNumber _ => .absorbNumber
  | .squeeze _ => .squeeze
  | .squeezeXor _ => .squeezeXor

/-- The argument field of a command (R77). -/
def Instr.argument : Instr → Arg
  | .reset => 0#32
  | .absorb b => b.setWidth 32
  | .absorbStop => 0#32
  | .absorbNumber n => BitVec.ofNat 32 n
  | .squeeze n => BitVec.ofNat 32 n
  | .squeezeXor d => d.setWidth 32

/-- The word of a well-formed command (R75, R82). -/
def encode (i : Instr) : CmdWord := formatC i.opcode i.argument

/-- A row of spec/opcode_table.json: a word is the row's exactly when `word & mask = match` (R78). -/
structure TableRow where
  mnemonic : String
  mask : CmdWord
  value : CmdWord
  deriving DecidableEq, Repr

/-- spec/opcode_table.json, letter for letter. -/
def opcodeTable : List TableRow :=
  [⟨"RESET",         0xFFFFFFFFFFFFFFFF, 0x0100000000000000⟩,
   ⟨"ABSORB",        0xFFFFFFFFFFFFFF00, 0x0200000000000000⟩,
   ⟨"ABSORB_STOP",   0xFFFFFFFFFFFFFFFF, 0x0300000000000000⟩,
   ⟨"ABSORB_NUMBER", 0xFFFFFFFF00000000, 0x0400000000000000⟩,
   ⟨"SQUEEZE",       0xFFFFFFFF00000000, 0x0500000000000000⟩,
   ⟨"SQUEEZE_XOR",   0xFFFFFFFFFFFFFF00, 0x0600000000000000⟩]

/-- The word matches the row. -/
def TableRow.holds (r : TableRow) (w : CmdWord) : Bool := w &&& r.mask == r.value

/-- A row's bits as the command word they are: the low `nbits` of `w`, every bit above them zero. The port carries the
word whole, so no byte order comes in (R74). -/
def wordOfTable (nbits w : Nat) : CmdWord := BitVec.ofNat 64 (w % 2 ^ nbits)

/-- The command the decoder reads from a row's bits. -/
def decodeTableWord (nbits w : Nat) : Option Instr :=
  match decode (wordOfTable nbits w) with
  | .legal i => some i
  | .illegal _ => none

end Sys2Proof
end

