-- ==== Sys2Proof/Machine/State.lean ====
section
/-! DEFINITION. The state of the engine and of its ports, the reasons a step can stop, and the state after reset. -/

namespace Sys2Proof.Machine

/-- `mem` (R21) as cells in canonical form: addresses strictly rising below 256, no cell equal to what its address
reads as when unlisted (log 9). -/
abbrev Memory := List Host.Cell

/-- The engine state, the tuple (mem, i, j, k, z, a, w) (R20). -/
structure Engine where
  /-- The permutation of 256 bytes (R21). -/
  mem : Memory
  /-- Written by update (R23). -/
  i : Byte
  /-- Written by update (R23). -/
  j : Byte
  /-- Written by update (R23). -/
  k : Byte
  /-- Written by drip_one (R23). -/
  z : Byte
  /-- Absorbed nibble count, 0..128 (R26, R28). 129..255 has no meaning (U1), so the type does not hold it (log 8). -/
  a : Fin 129
  /-- Written by whip, odd in every reachable state (R24, R25). -/
  w : Byte
  deriving DecidableEq, Repr

/-- What the host drives on the input ports at one edge of `clk`, and whether it reads STATUS there (R70 to R74, R255;
log 1). -/
structure HostDrive where
  /-- `rst_n`, active low (R74). -/
  rstN : Bool
  /-- `some w`: `cmd_valid = 1` with `cmd_word = w`; `none`: `cmd_valid = 0` (R70). -/
  cmd : Option CmdWord
  /-- `out_ready` (R72). -/
  outReady : Bool
  /-- The host reads `status[7:0]` (R73, R255). -/
  readStatus : Bool
  deriving DecidableEq, Repr

/-- The whole machine: the engine, the controller's sticky error, the output stream, and the host's side of the ports. -/
structure State where
  /-- R20. -/
  engine : Engine
  /-- STATUS.ERR (R34). -/
  err : Bool
  /-- STATUS.ERRCODE; `none` is 0 NONE (R35). The reserved value 3 is not representable (U7). -/
  errCode : Option IllegalCode
  /-- OUTQ, head first (R31). -/
  outq : List Byte
  /-- What the host drives at the edges to come, next first (log 1). -/
  host : List HostDrive
  /-- The word the host held on the command port at the last edge without a transfer (R70, U9; log 4, log 5). -/
  offered : Option CmdWord
  /-- The bytes the host took, in order: the observation of a run (R256; log 14). -/
  taken : List Byte
  /-- The STATUS values the host read, in order (R255, R256; log 14). -/
  statusReads : List Byte
  /-- How many STATUS reads have drawn the free ABSORBING bit: the model's own counter (U3; log 3). -/
  statusDraws : Nat
  deriving DecidableEq, Repr

/-- Reasons the machine stops with a fault. There is none: every legal command succeeds (R208), an illegal word is the
exception of R201, after which the machine goes on, and a host that takes no output leaves it busy, which is no engine
fault (R252). Nobody raises a fault; safe (log 17). -/
inductive Fault where
  deriving DecidableEq, Repr

/-- Reasons the machine has no next state. -/
inductive Refusal where
  /-- Raised by `exec` for an instruction that has no meaning yet; safe. No arm raises it. -/
  | notModelled (mnemonic : String)
  /-- Raised by the controller when the host changes or withdraws `cmd_word` while `cmd_valid = 1` and `cmd_ready = 0`,
  which "has no meaning in this spec" (R255, U9); safe (log 4). -/
  | offerChanged
  deriving DecidableEq, Repr

/-- The canonical initial state of the engine (R42): no cell is listed, so `mem[x] = x`. -/
def Engine.canonical : Engine :=
  { mem := [], i := 0, j := 0, k := 0, z := 0, a := 0, w := 1 }

/-- The machine right after the hardware reset (R42, R240, R243). The host's side is empty: it has driven nothing,
taken nothing and read nothing yet (log 13, log 14). -/
def State.reset : State :=
  { engine := Engine.canonical
    err := false
    errCode := none
    outq := []
    host := []
    offered := none
    taken := []
    statusReads := []
    statusDraws := 0 }

end Sys2Proof.Machine
end

