-- ==== Sys2Proof/Machine/Ops.lean ====
section
/-! DEFINITION. The named operations over memory and the controller: mem read, write and swap (R12), emit (R13), taking
IllegalCommand (R201) and the way out of the hold (R204, R211). -/

namespace Sys2Proof.Machine

/-- What an unlisted address reads as: its reset value, `mem[x] = x` (R42). -/
def Memory.resetByte (addr : Nat) : Byte := BitVec.ofNat 8 addr

/-- The byte listed for an address, or its reset value. -/
def Memory.lookup (addr : Nat) : Memory → Byte
  | [] => Memory.resetByte addr
  | c :: rest => if c.1 = addr then c.2 else Memory.lookup addr rest

/-- The cells that stand for `addr` holding `v`: none when that is its reset value. -/
def Memory.entry (addr : Nat) (v : Byte) : Memory :=
  if v = Memory.resetByte addr then [] else [(addr, v)]

/-- Sets the byte of an address, keeping the canonical form. -/
def Memory.put (addr : Nat) (v : Byte) : Memory → Memory
  | [] => Memory.entry addr v
  | c :: rest =>
    if c.1 < addr then c :: Memory.put addr v rest
    else Memory.entry addr v ++ (if c.1 = addr then rest else c :: rest)

/-- The cells are in canonical form from address `low` on. -/
def Memory.wfFrom (low : Nat) : Memory → Bool
  | [] => true
  | c :: rest =>
    decide (low ≤ c.1) && decide (c.1 < 256) && (c.2 != Memory.resetByte c.1) && Memory.wfFrom (c.1 + 1) rest

/-- The canonical form: addresses strictly rising below 256, no cell equal to its reset value (log 9). -/
def Memory.wf (m : Memory) : Bool := Memory.wfFrom 0 m

/-- `mem[x]` (R12): the index is a u8, so it is reduced modulo 256 by its type. -/
def Memory.read (m : Memory) (x : Byte) : Byte := Memory.lookup x.toNat m

/-- `mem[x] <- v` (R12). -/
def Memory.write (m : Memory) (x v : Byte) : Memory := Memory.put x.toNat v m

/-- `swap(p, q)` (R12): `t <- mem[p]; mem[p] <- mem[q]; mem[q] <- t`. -/
def Memory.swap (m : Memory) (p q : Byte) : Memory :=
  (m.write p (m.read q)).write q (m.read p)

/-- `emit(b)` appends b to the tail of OUTQ (R13, R31). -/
def emit (b : Byte) (s : State) : State := { s with outq := s.outq ++ [b] }

/-- TAKING THE EXCEPTION `IllegalCommand(code)` (R201, R209): it saves the code of the first illegal word and sets ERR.
Nothing else changes, and control goes nowhere. -/
def raiseIllegal (code : IllegalCode) (s : State) : State :=
  if s.err then s else { s with err := true, errCode := some code }

/-- THE RETURN from the error hold, part of RESET and of the hardware reset (R170, R211, R240). -/
def clearError (s : State) : State := { s with err := false, errCode := none }

/-- A legal command other than RESET is performed only while ERR = 0; otherwise it is discarded with no effect (R204). -/
def unlessHeld (s performed : State) : State := if s.err then s else performed

end Sys2Proof.Machine
end

