-- ==== Sys2Proof/Machine/Operands.lean ====
section
/-! DEFINITION. Operand forms inside the commands: the two nibbles of a byte (R11, R105), the index operands of
absorb_nibble (R104) and the byte encoding of a number (R132). -/

namespace Sys2Proof.Machine

/-- `b[3:0]`, the low nibble (R11). -/
def lowNibble (b : Byte) : Nibble := b.extractLsb' 0 4

/-- `b[7:4]`, the high nibble (R11). -/
def highNibble (b : Byte) : Nibble := b.extractLsb' 4 4

/-- The absorb position `a` as an index of mem (R51, R104). -/
def absorbIndex (a : Fin 129) : Byte := BitVec.ofNat 8 a.val

/-- The nibble target `128 + x` (R51, R104). -/
def nibbleIndex (x : Nibble) : Byte := Config.nibbleBase + x.setWidth 8

/-- `m mod 256` as a u8 (R132). -/
def leastByte (m : Nat) : Byte := BitVec.ofNat 8 m

/-- The loop of R132, `fuel` bounding its repetitions after the first: at least one byte, least significant first, until
what is left is 0. -/
def numberBytesFuel : Nat → Nat → List Byte
  | 0, m => [leastByte m]
  | fuel + 1, m => leastByte m :: (if m / 256 = 0 then [] else numberBytesFuel fuel (m / 256))

/-- The minimal little-endian base-256 encoding of n; zero is one zero byte (R132). Every repetition makes the number
smaller, so n repetitions are enough. -/
def numberBytes (n : Nat) : List Byte := numberBytesFuel n n

end Sys2Proof.Machine
end

