-- ==== Sys2Proof/Machine/Mixing.lean ====
section
/-! DEFINITION. The mixing primitives (R100 to R106), private operations of the engine (R80). -/

namespace Sys2Proof.Machine

/-- One round of update (R100): each line reads what the lines before it wrote (R14). -/
def updateRound (e : Engine) : Engine :=
  let i := e.i + e.w
  let j := e.k + e.mem.read (e.j + e.mem.read i)
  let k := i + e.k + e.mem.read j
  { e with i := i, j := j, k := k, mem := e.mem.swap i j }

/-- update(times) (R100): the last of `times` rounds acts on what the rounds before it left. -/
def update : Nat → Engine → Engine
  | 0, e => e
  | times + 1, e => updateRound (update times e)

/-- whip(amount) (R101). -/
def whip (amount : Nat) (e : Engine) : Engine :=
  let e := update amount e
  { e with w := e.w + Config.whipIncrement }

/-- One pair of crush (R102): exchange `mem[v]` and `mem[255 - v]` when the first is greater. -/
def crushPair (m : Memory) (v : Byte) : Memory :=
  if m.read (255 - v) < m.read v then m.swap v (255 - v) else m

/-- The pairs v = 0 .. n-1 of crush, in order (R102). -/
def crushPairs : Nat → Memory → Memory
  | 0, m => m
  | n + 1, m => crushPair (crushPairs n m) (BitVec.ofNat 8 n)

/-- The first `pairs` pairs of crush; only mem is written (R102). -/
def crushOf (pairs : Nat) (e : Engine) : Engine := { e with mem := crushPairs pairs e.mem }

/-- crush() (R102): all 128 pairs. -/
def crush (e : Engine) : Engine := crushOf Config.pairCount e

/-- The three whips and two crushes of shuffle, then `a <- 0` (R103), over any counts: facts about it are proved with
`rounds` and `pairs` as variables, so that no proof unrolls 1536 rounds. -/
def shuffleOf (rounds pairs : Nat) (e : Engine) : Engine :=
  let e := crushOf pairs (whip rounds e)
  let e := crushOf pairs (whip rounds e)
  { whip rounds e with a := 0 }

/-- shuffle() (R103): whip(512) three times, crush() between them. -/
def shuffle (e : Engine) : Engine := shuffleOf Config.whipRounds Config.pairCount e

/-- `if a == 128: shuffle()`, the check that absorb_nibble and absorb_stop share (R104, R131). Afterwards a ≤ 127. -/
def makeRoom (e : Engine) : Engine := if e.a.val = 128 then shuffle e else e

/-- `a <- a + 1` (R104, R131). It is applied only after `makeRoom`, where a ≤ 127, so the reduction never acts. -/
def countNibble (a : Fin 129) : Fin 129 := ⟨(a.val + 1) % 129, Nat.mod_lt _ (by decide)⟩

/-- absorb_nibble(x) (R104). -/
def absorbNibble (x : Nibble) (e : Engine) : Engine :=
  let e := makeRoom e
  { e with mem := e.mem.swap (absorbIndex e.a) (nibbleIndex x), a := countNibble e.a }

/-- absorb_byte(b) (R105): low nibble first. -/
def absorbByte (b : Byte) (e : Engine) : Engine :=
  absorbNibble (highNibble b) (absorbNibble (lowNibble b) e)

/-- drip_one() (R106). The byte it returns is the new z. -/
def dripOne (e : Engine) : Engine :=
  let e := update 1 e
  { e with z := e.mem.read (e.j + e.mem.read (e.i + e.mem.read (e.z + e.k))) }

end Sys2Proof.Machine
end

