-- ==== Sys2Proof/Machine/Absorb.lean ====
section
/-! DEFINITION. The absorb family: ABSORB, ABSORB_STOP, ABSORB_NUMBER (R130 to R132). -/

namespace Sys2Proof.Machine

/-- absorb_byte of each byte, in sequence order (R132, R133). -/
def absorbBytes : List Byte → Engine → Engine
  | [], e => e
  | b :: bs, e => absorbBytes bs (absorbByte b e)

/-- absorb_stop(): make room, then count without a swap (R131). -/
def absorbStop (e : Engine) : Engine :=
  let e := makeRoom e
  { e with a := countNibble e.a }

/-- ABSORB b (R130). -/
def execAbsorb (b : Byte) (s : State) : Host.Outcome State Fault Refusal :=
  .next (unlessHeld s { s with engine := absorbByte b s.engine })

/-- ABSORB_STOP (R131). -/
def execAbsorbStop (s : State) : Host.Outcome State Fault Refusal :=
  .next (unlessHeld s { s with engine := absorbStop s.engine })

/-- ABSORB_NUMBER n (R132). -/
def execAbsorbNumber (n : Nat) (s : State) : Host.Outcome State Fault Refusal :=
  .next (unlessHeld s { s with engine := absorbBytes (numberBytes n) s.engine })

end Sys2Proof.Machine
end

