-- ==== Sys2Proof/Machine/Control.lean ====
section
/-! DEFINITION. The control command RESET (R170). -/

namespace Sys2Proof.Machine

/-- RESET (R170): the canonical engine state, and the way out of the error hold; performed whether ERR is set or not
(R204). -/
def execReset (s : State) : Host.Outcome State Fault Refusal :=
  .next (clearError { s with engine := Engine.canonical })

end Sys2Proof.Machine
end

