-- ==== Sys2Proof/Machine/Flags.lean ====
section
/-! DEFINITION. The STATUS register and the handshake signals, all computed from the state (R32 to R37, R71, R72). There
are no arithmetic flags (R39). -/

namespace Sys2Proof.Machine

/-- STATUS.BUSY between steps: OUTQ is not empty (R33, R253). -/
def busy (s : State) : Bool := !s.outq.isEmpty

/-- The phase predicate `a > 0` (R27). -/
def absorbing (e : Engine) : Bool := decide (0 < e.a.val)

/-- STATUS.ABSORBING as the status port drives it: `a ≠ 0` while BUSY = 0, a free value while BUSY = 1 (R36, U3;
log 3). -/
def absorbingBit (s : State) : Bool :=
  if busy s then Config.busyAbsorbing s.statusDraws else absorbing s.engine

/-- STATUS.ERRCODE (R35, R202). -/
def errCodeField : Option IllegalCode → BitVec 2
  | none => 0
  | some .illegalOpcode => 1
  | some .reservedBits => 2

/-- The STATUS register (R32): bits 7:5 zero, ABSORBING, ERRCODE, ERR, BUSY. -/
def statusByte (s : State) : Byte :=
  (0 : BitVec 3) ++ BitVec.ofBool (absorbingBit s) ++ errCodeField s.errCode ++ BitVec.ofBool s.err
    ++ BitVec.ofBool (busy s)

/-- `cmd_ready` under the driven `rst_n` (R71). -/
def cmdReady (rstN : Bool) (s : State) : Bool := rstN && !busy s

/-- `out_valid` (R72). -/
def outValid (s : State) : Bool := !s.outq.isEmpty

/-- `out_data`, the head of OUTQ; it means nothing while `out_valid = 0` (R72). -/
def outData (s : State) : Option Byte := s.outq.head?

end Sys2Proof.Machine
end

