-- ==== Sys2Proof/Machine/Squeeze.lean ====
section
/-! DEFINITION. The squeeze family: SQUEEZE and SQUEEZE_XOR (R150, R151). -/

namespace Sys2Proof.Machine

/-- `if a > 0: shuffle()`, the phase check at the start of every squeeze command (R150, R151, R251). -/
def finishAbsorbing (e : Engine) : Engine := if absorbing e then shuffle e else e

/-- `emit(d ^ drip_one())` (R151). -/
def dripXor (d : Byte) (s : State) : State :=
  let e := dripOne s.engine
  emit (d ^^^ e.z) { s with engine := e }

/-- `emit(drip_one())` (R150). -/
def drip (s : State) : State :=
  let e := dripOne s.engine
  emit e.z { s with engine := e }

/-- `for t in 0 .. n-1: emit(drip_one())` (R150). -/
def drips : Nat → State → State
  | 0, s => s
  | n + 1, s => drips n (drip s)

/-- SQUEEZE n (R150). The phase check is made once; n = 0 still makes it (R154). -/
def execSqueeze (n : Nat) (s : State) : Host.Outcome State Fault Refusal :=
  .next (unlessHeld s (drips n { s with engine := finishAbsorbing s.engine }))

/-- SQUEEZE_XOR d (R151). -/
def execSqueezeXor (d : Byte) (s : State) : Host.Outcome State Fault Refusal :=
  .next (unlessHeld s (dripXor d { s with engine := finishAbsorbing s.engine }))

end Sys2Proof.Machine
end

