-- ==== Sys2Proof/Machine/Dispatch.lean ====
section
/-! DEFINITION. One arm per command: the controller's dispatch of a legal word (R78, R204). -/

namespace Sys2Proof.Machine

def exec (i : Instr) (s : State) : Host.Outcome State Fault Refusal :=
  match i with
  | .reset => Sys2Proof.Machine.execReset s
  | .absorb b => Sys2Proof.Machine.execAbsorb b s
  | .absorbStop => Sys2Proof.Machine.execAbsorbStop s
  | .absorbNumber n => Sys2Proof.Machine.execAbsorbNumber n s
  | .squeeze n => Sys2Proof.Machine.execSqueeze n s
  | .squeezeXor d => Sys2Proof.Machine.execSqueezeXor d s

end Sys2Proof.Machine
end

