-- ==== Sys2Proof/Machine/Controller.lean ====
section
/-! DEFINITION. The controller at one edge of `clk`: the hardware reset (R240), the command handshake (R70, R71), the
output handshake (R72) and the status port (R73). -/

namespace Sys2Proof.Machine

/-- The hardware reset (R240): canonical engine state, no error, OUTQ emptied. What the host has taken and read is the
host's and stays (log 14); a word held on the command port is forgotten (log 5). -/
def hardReset (s : State) : State :=
  clearError { s with engine := Engine.canonical, outq := [], offered := none }

/-- The host reads `status[7:0]`: it gets the value the port drives, and the engine does nothing (R73, R255). The read
draws the free ABSORBING bit (U3; log 3). -/
def sampleStatus (s : State) : State :=
  { s with statusReads := s.statusReads ++ [statusByte s], statusDraws := s.statusDraws + 1 }

/-- The output handshake (R72): with `out_ready = 1` and OUTQ not empty, its head goes to the host. -/
def transferOutput (outReady : Bool) (s : State) : State :=
  match outReady, s.outq with
  | true, b :: rest => { s with outq := rest, taken := s.taken ++ [b] }
  | _, _ => s

/-- The engine accepts a command word and consumes it (R70, R201, R204). -/
def accept (w : CmdWord) (s : State) : Host.Outcome State Fault Refusal :=
  match decode w with
  | .legal i => exec i s
  | .illegal code => .next (raiseIllegal code s)

/-- A word was held on the command port without a transfer, and the host now drives another one or none (U9; log 4). -/
def offerBroken (cmd : Option CmdWord) (s : State) : Bool :=
  match s.offered with
  | none => false
  | some w => decide (cmd ≠ some w)

/-- What the edge does once `rst_n = 1` and the held word is still there (R70 to R72, R250): a command word transfers
when the engine is ready, otherwise it is held; a byte transfers when there is one and the host is ready. The two never
happen at once, since `cmd_ready` needs OUTQ to be empty. -/
def handshakes (d : HostDrive) (s : State) : Host.Outcome State Fault Refusal :=
  match d.cmd with
  | none => .next (transferOutput d.outReady s)
  | some w =>
    if cmdReady d.rstN s then accept w { s with offered := none }
    else .next (transferOutput d.outReady { s with offered := some w })

/-- One edge (R70 to R74, R240). `rst_n = 0` comes before everything else (log 2). -/
def edge (d : HostDrive) (s : State) : Host.Outcome State Fault Refusal :=
  if d.rstN = false then .next (hardReset s)
  else if offerBroken d.cmd s then .refused .offerChanged
  else handshakes d s

/-- The state the edge finds: the drive is taken from the host's list, and a STATUS read sees the state before the edge
(log 2). -/
def beginEdge (d : HostDrive) (rest : List HostDrive) (s : State) : State :=
  { (if d.readStatus then sampleStatus s else s) with host := rest }

/-- One step: the next edge the host drives. With nothing left to drive the engine is idle and keeps all its state
(R218; log 1). -/
def stepEdge (s : State) : Host.Outcome State Fault Refusal :=
  match s.host with
  | [] => .next s
  | d :: rest => edge d (beginEdge d rest s)

/-- The host puts a word on the command port at the very next edge, having taken every byte that still waits (R250) and
dropped any held word, so that the next step transfers the word (log 13). -/
def driveCommand (w : CmdWord) (s : State) : State :=
  { s with
    host := { rstN := true, cmd := some w, outReady := false, readStatus := false } :: s.host
    offered := none
    outq := []
    taken := s.taken ++ s.outq }

end Sys2Proof.Machine
end

