-- ==== Sys2Proof/Machine/Step.lean ====
section
/-! DEFINITION. The step of the machine, and how a row's word is put where the next step takes it. -/

namespace Sys2Proof.Machine

/-- One step of the machine: one edge of the ports (R17, R70 to R74, R253). -/
def step (s : State) : Host.Outcome State Fault Refusal := stepEdge s

/-- s with the row's word offered on the command port at the very next edge (log 13). -/
def State.withFetchWord (s : State) (nbits w : Nat) : State := driveCommand (wordOfTable nbits w) s

end Sys2Proof.Machine
end

