-- ==== Sys2Proof/Machine/Counts.lean ====
section
/-! DEFINITION. The operation counts of R112: each primitive and each command again, with a tally of the operations it
performs beside the engine it leaves. The engine itself has no counter (R214), so the tally is no part of State, and
nothing the machine does reads it. It counts operations, not cycles (R260). -/

namespace Sys2Proof.Machine

/-- What R112 counts. -/
structure Work where
  /-- Rounds of update. -/
  rounds : Nat
  /-- Compare-and-conditional-exchange steps of crush. -/
  compares : Nat
  /-- The nested mem reads of drip_one's z line. -/
  nestedReads : Nat
  /-- The final reads of drip_one, of the new z it returns (log 20). -/
  finalReads : Nat
  deriving DecidableEq, Repr

/-- No operation performed yet. -/
def Work.zero : Work := { rounds := 0, compares := 0, nestedReads := 0, finalReads := 0 }

/-- An engine and what was performed to reach it. -/
structure Counted where
  engine : Engine
  work : Work
  deriving DecidableEq, Repr

/-- One round of update, counted (R100, R112). -/
def countedRound (c : Counted) : Counted :=
  { engine := updateRound c.engine, work := { c.work with rounds := c.work.rounds + 1 } }

/-- update(times), counted (R100, R112). -/
def countedUpdate : Nat → Counted → Counted
  | 0, c => c
  | times + 1, c => countedRound (countedUpdate times c)

/-- whip(amount), counted (R101, R112). -/
def countedWhip (amount : Nat) (c : Counted) : Counted :=
  let c := countedUpdate amount c
  { c with engine := { c.engine with w := c.engine.w + Config.whipIncrement } }

/-- One pair of crush, counted whether the exchange is due or not (R102, R112). -/
def countedPair (v : Byte) (c : Counted) : Counted :=
  { engine := { c.engine with mem := crushPair c.engine.mem v }
    work := { c.work with compares := c.work.compares + 1 } }

/-- The first `pairs` pairs of crush, counted (R102, R112). -/
def countedCrushOf : Nat → Counted → Counted
  | 0, c => c
  | pairs + 1, c => countedPair (BitVec.ofNat 8 pairs) (countedCrushOf pairs c)

/-- crush(), counted (R102, R112). -/
def countedCrush (c : Counted) : Counted := countedCrushOf Config.pairCount c

/-- The whips and crushes of shuffle over any counts, counted (R103, R112). -/
def countedShuffleOf (rounds pairs : Nat) (c : Counted) : Counted :=
  let c := countedCrushOf pairs (countedWhip rounds c)
  let c := countedCrushOf pairs (countedWhip rounds c)
  let c := countedWhip rounds c
  { c with engine := { c.engine with a := 0 } }

/-- shuffle(), counted (R103, R112). -/
def countedShuffle (c : Counted) : Counted := countedShuffleOf Config.whipRounds Config.pairCount c

/-- One nested read of mem, counted (R112). -/
def countRead (c : Counted) : Counted := { c with work := { c.work with nestedReads := c.work.nestedReads + 1 } }

/-- drip_one(), counted: one round, the reads `mem[z + k]`, `mem[i + ..]`, `mem[j + ..]`, and the final read of the z it
returns (R106, R112). -/
def countedDrip (c : Counted) : Counted :=
  let c := countedUpdate 1 c
  let inner := c.engine.mem.read (c.engine.z + c.engine.k)
  let c := countRead c
  let middle := c.engine.mem.read (c.engine.i + inner)
  let c := countRead c
  let outer := c.engine.mem.read (c.engine.j + middle)
  let c := countRead c
  { engine := { c.engine with z := outer }, work := { c.work with finalReads := c.work.finalReads + 1 } }

/-- The room check, counted (R104, R131). -/
def countedRoom (c : Counted) : Counted := if c.engine.a.val = 128 then countedShuffle c else c

/-- absorb_nibble(x), counted: its one exchange is no operation R112 counts (R104). -/
def countedNibble (x : Nibble) (c : Counted) : Counted :=
  let c := countedRoom c
  { c with engine := { c.engine with
      mem := c.engine.mem.swap (absorbIndex c.engine.a) (nibbleIndex x)
      a := countNibble c.engine.a } }

/-- absorb_byte of each byte, counted (R105, R132, R133). -/
def countedBytes : List Byte → Counted → Counted
  | [], c => c
  | b :: bs, c => countedBytes bs (countedNibble (highNibble b) (countedNibble (lowNibble b) c))

/-- absorb_stop(), counted (R131). -/
def countedStop (c : Counted) : Counted :=
  let c := countedRoom c
  { c with engine := { c.engine with a := countNibble c.engine.a } }

/-- The phase check, counted (R150). -/
def countedFinish (c : Counted) : Counted := if absorbing c.engine then countedShuffle c else c

/-- n drips, counted (R150). -/
def countedDrips : Nat → Counted → Counted
  | 0, c => c
  | n + 1, c => countedDrips n (countedDrip c)

/-- What a command performed with ERR = 0 does to the engine, counted (R112, R261). -/
def countedCommand (i : Instr) (c : Counted) : Counted :=
  match i with
  | .reset => { c with engine := Engine.canonical }
  | .absorb b => countedBytes [b] c
  | .absorbStop => countedStop c
  | .absorbNumber n => countedBytes (numberBytes n) c
  | .squeeze n => countedDrips n (countedFinish c)
  | .squeezeXor _ => countedDrip (countedFinish c)

end Sys2Proof.Machine
end

