-- ==== Sys2Proof/Machine/Program.lean ====
section
/-! DEFINITION. Command sequences, the pseudo-instructions and their expansions (R83), and the source's whole operations
as the host offers them (R133, R134, R152, R153, R206). -/

namespace Sys2Proof.Machine

/-- The commands of a sequence, performed in order (R38, R55). The bytes they emit stay in OUTQ: no wait for the host
comes between two commands, since no byte's value depends on when it is taken (R253; log 16). -/
def execAll : List Instr → State → Host.Outcome State Fault Refusal
  | [], s => .next s
  | i :: is, s =>
    match exec i s with
    | .next t => execAll is t
    | .fault r => .fault r
    | .refused r => .refused r

/-- The pseudo-instructions (R83). -/
inductive Pseudo where
  /-- `absorb.bytes b0, ..., b(L-1)`. -/
  | absorbBytes (bs : List Byte)
  /-- `absorb_number.wide n`, any Nat n. -/
  | absorbNumberWide (n : Nat)
  /-- `squeeze.wide n`, any Nat n. -/
  | squeezeWide (n : Nat)
  /-- `squeeze_xor.buf d0, ..., d(L-1)`. -/
  | squeezeXorBuf (ds : List Byte)
  deriving DecidableEq, Repr

/-- The largest operand of one command, 2^32−1 (R9). -/
def maxArg : Nat := 4294967295

/-- The expansion of a pseudo-instruction into commands (R83). -/
def expand : Pseudo → List Instr
  | .absorbBytes bs => bs.map .absorb
  | .absorbNumberWide n => if n ≤ maxArg then [.absorbNumber n] else (numberBytes n).map .absorb
  | .squeezeWide n =>
    if n ≤ maxArg then [.squeeze n] else List.replicate (n / maxArg) (.squeeze maxArg) ++ [.squeeze (n % maxArg)]
  | .squeezeXorBuf [] => [.squeeze 0]
  | .squeezeXorBuf (d :: ds) => (d :: ds).map .squeezeXor

/-- The source's `absorb(bytes)`: absorb_byte of each byte in order (R133). The source has no error hold: that the call
does nothing while ERR = 1 is the model's (DEDUCED from R204; log 16). -/
def sourceAbsorb (bs : List Byte) (s : State) : State :=
  unlessHeld s { s with engine := absorbBytes bs s.engine }

/-- One drip and XOR per buffer byte, left to right (R52, R152). -/
def dripXors : List Byte → State → State
  | [], s => s
  | d :: ds, s => dripXors ds (dripXor d s)

/-- The source's `squeeze_xor(buffer)`: one phase check, then a drip per byte (R152); nothing while ERR = 1 (log 16). -/
def sourceSqueezeXor (buffer : List Byte) (s : State) : State :=
  unlessHeld s (dripXors buffer { s with engine := finishAbsorbing s.engine })

/-- The host writes the t-th byte it took back to position t of its buffer (R60, R152). -/
def writeBack : List Byte → List Byte → List Byte
  | _ :: buffer, b :: bytes => b :: writeBack buffer bytes
  | buffer, _ => buffer

/-- A host driver's `absorb_number` on a signed number (R206): a negative one is the source's InvalidArgument, and no
command is sent; any other goes through `absorb_number.wide`. -/
def driverAbsorbNumber (n : Int) : Option (List Instr) :=
  if n < 0 then none else some (expand (.absorbNumberWide n.toNat))

end Sys2Proof.Machine
end

