-- ==== Sys2Proof/Machine/Assembler.lean ====
section
/-! DEFINITION. The assembler's syntax: lines of text to command words (R81 to R83). What R81 leaves open is fixed as
log 15 says. -/

namespace Sys2Proof.Machine

/-- The value of a digit: decimal, or hexadecimal in either case (R81). -/
def digitValue (base : Nat) (c : Char) : Option Nat :=
  let v :=
    if '0'.toNat ≤ c.toNat ∧ c.toNat ≤ '9'.toNat then c.toNat - '0'.toNat
    else if 'a'.toNat ≤ c.toNat ∧ c.toNat ≤ 'f'.toNat then c.toNat - 'a'.toNat + 10
    else if 'A'.toNat ≤ c.toNat ∧ c.toNat ≤ 'F'.toNat then c.toNat - 'A'.toNat + 10
    else base
  if v < base then some v else none

/-- The number a run of digits spells after the digits read so far. -/
def digitsValue (base acc : Nat) : List Char → Option Nat
  | [] => some acc
  | c :: cs =>
    match digitValue base c with
    | some d => digitsValue base (acc * base + d) cs
    | none => none

/-- An ASCII character as a byte value (R81). -/
def asciiValue (c : Char) : Option Nat := if c.toNat < 128 then some c.toNat else none

/-- A run of digits, at least one. -/
def parseDigits (base : Nat) : List Char → Option Nat
  | [] => none
  | d :: ds => digitsValue base 0 (d :: ds)

/-- A character literal after its opening quote (R81). -/
def parseChar : List Char → Option Nat
  | [c, quote] => if quote = '\'' then asciiValue c else none
  | _ => none

/-- An operand: a decimal number, a `0x` hexadecimal number or a character literal (R81). -/
def parseNumber : List Char → Option Nat
  | [] => none
  | c :: rest =>
    if c = '\'' then parseChar rest
    else if c = '0' ∧ rest.head? = some 'x' then parseDigits 16 rest.tail
    else parseDigits 10 (c :: rest)

/-- A number within its range; the assembler refuses one outside it (R81). -/
def parseUpTo (limit : Nat) (text : List Char) : Option Nat :=
  match parseNumber text with
  | some n => if n ≤ limit then some n else none
  | none => none

/-- A u8 operand (R81). -/
def parseByte (text : List Char) : Option Byte := (parseUpTo 255 text).map (BitVec.ofNat 8)

/-- The text before a comment; a `;` inside a character or string literal starts none (R81). -/
def stripComment (inString : Bool) : List Char → List Char
  | [] => []
  | c :: cs =>
    if inString then c :: stripComment (c != '"') cs
    else if c = ';' then []
    else if c = '"' then c :: stripComment true cs
    else
      match cs with
      | x :: quote :: rest =>
        if c = '\'' ∧ quote = '\'' then c :: x :: quote :: stripComment false rest
        else c :: stripComment false (x :: quote :: rest)
      | cs => c :: stripComment false cs

/-- A space or a tab: the blanks dropped at the ends of a line and of an operand in a list (DESIGN CHOICE, log 15). -/
def isBlank (c : Char) : Bool := c == ' ' || c == '\t'

/-- Without the blanks at its start. -/
def dropBlanks : List Char → List Char
  | [] => []
  | c :: cs => if isBlank c then dropBlanks cs else c :: cs

/-- Without the blanks at either end. -/
def trimBlanks (text : List Char) : List Char := (dropBlanks (dropBlanks text).reverse).reverse

/-- The parts of an operand list between commas; a comma inside a character literal separates nothing (R83). `part` is
the part being read, last character first. -/
def splitCommas (part : List Char) : List Char → List (List Char)
  | [] => [part.reverse]
  | c :: cs =>
    if c = ',' then part.reverse :: splitCommas [] cs
    else
      match cs with
      | x :: quote :: rest =>
        if c = '\'' ∧ quote = '\'' then splitCommas (quote :: x :: c :: part) rest
        else splitCommas (c :: part) (x :: quote :: rest)
      | cs => splitCommas (c :: part) cs

/-- The bytes of a string literal after its opening quote, one per ASCII character, the closing quote last (R83). -/
def stringBytes : List Char → Option (List Byte)
  | [] => none
  | c :: cs =>
    if c = '"' then (if cs = [] then some [] else none)
    else
      match asciiValue c, stringBytes cs with
      | some v, some bs => some (BitVec.ofNat 8 v :: bs)
      | _, _ => none

/-- The bytes of a list of operands, all of which must be u8 operands. -/
def parseBytes : List (List Char) → Option (List Byte)
  | [] => some []
  | text :: rest =>
    match parseByte (trimBlanks text), parseBytes rest with
    | some b, some bs => some (b :: bs)
    | _, _ => none

/-- The operand of absorb.bytes and squeeze_xor.buf: nothing, a string literal, or a comma-separated list (R83). -/
def parseByteList : List Char → Option (List Byte)
  | [] => some []
  | c :: cs => if c = '"' then stringBytes cs else parseBytes (splitCommas [] (c :: cs))

/-- The mnemonic and, after one space, the operand (R81). `part` is the mnemonic being read, last character first. -/
def splitMnemonic (part : List Char) : List Char → List Char × Option (List Char)
  | [] => (part.reverse, none)
  | c :: cs => if c = ' ' then (part.reverse, some cs) else splitMnemonic (c :: part) cs

/-- The words of a statement with no operand. -/
def assembleBare (m : List Char) : Option (List CmdWord) :=
  if m = [] then some []
  else if m = "reset".toList then some [encode .reset]
  else if m = "absorb_stop".toList then some [encode .absorbStop]
  else if m = "absorb.bytes".toList then some ((expand (.absorbBytes [])).map encode)
  else if m = "squeeze_xor.buf".toList then some ((expand (.squeezeXorBuf [])).map encode)
  else none

/-- The words of a statement with an operand. R81 has `.word v` emit the 64-bit value v unchecked and gives no range for v:
DESIGN CHOICE, a v of 2^64 or more, which is no 64-bit value, is refused and not truncated (log 15). -/
def assembleWith (m operand : List Char) : Option (List CmdWord) :=
  if m = "absorb".toList then (parseByte operand).map fun b => [encode (.absorb b)]
  else if m = "absorb_number".toList then (parseUpTo maxArg operand).map fun n => [encode (.absorbNumber n)]
  else if m = "squeeze".toList then (parseUpTo maxArg operand).map fun n => [encode (.squeeze n)]
  else if m = "squeeze_xor".toList then (parseByte operand).map fun d => [encode (.squeezeXor d)]
  else if m = ".word".toList then (parseUpTo (2 ^ 64 - 1) operand).map fun v => [BitVec.ofNat 64 v]
  else if m = "absorb.bytes".toList then
    (parseByteList operand).map fun bs => (expand (.absorbBytes bs)).map encode
  else if m = "absorb_number.wide".toList then
    (parseNumber operand).map fun n => (expand (.absorbNumberWide n)).map encode
  else if m = "squeeze.wide".toList then
    (parseNumber operand).map fun n => (expand (.squeezeWide n)).map encode
  else if m = "squeeze_xor.buf".toList then
    (parseByteList operand).map fun ds => (expand (.squeezeXorBuf ds)).map encode
  else none

/-- The words of a line whose comment and outer blanks are gone (R81 to R83). `none`: the assembler refuses the line. -/
def assembleStatement (text : List Char) : Option (List CmdWord) :=
  match splitMnemonic [] text with
  | (m, none) => assembleBare m
  | (m, some operand) => assembleWith m operand

/-- The words of one line (R81). -/
def assembleLine (line : List Char) : Option (List CmdWord) :=
  assembleStatement (trimBlanks (stripComment false line))

/-- The lines of a text; `line` is the line being read, last character first. R81 has one command per line and does not
say what ends a line: DESIGN CHOICE, the line feed alone does, and a carriage return is a character of the line (no
blank, so a line that ends in CR LF is refused unless the CR stands in a comment; log 15). -/
def splitLines (line : List Char) : List Char → List (List Char)
  | [] => [line.reverse]
  | c :: cs => if c = '\n' then line.reverse :: splitLines [] cs else splitLines (c :: line) cs

/-- The words of all lines, in order. DESIGN CHOICE: the whole text is refused if any line is (log 15). -/
def assembleLines : List (List Char) → Option (List CmdWord)
  | [] => some []
  | line :: rest =>
    match assembleLine line, assembleLines rest with
    | some ws, some more => some (ws ++ more)
    | _, _ => none

/-- The command words of a program text (R81). -/
def assemble (text : String) : Option (List CmdWord) := assembleLines (splitLines [] text.toList)

end Sys2Proof.Machine
end

