-- ==== Sys2Proof/Safety.lean ====
section
/-! DEFINITION. The terms claims use: the invariants of the machine (R22, R25, R35), what an edge transfers, and the end
and the observation of a run (R256). -/

namespace Sys2Proof.Machine

/-- mem is a permutation of 0..255: no value repeats, none is missing (R22). -/
def Memory.isPermutation (m : Memory) : Prop :=
  (∀ x y : Byte, m.read x = m.read y → x = y) ∧ ∀ v : Byte, ∃ x : Byte, m.read x = v

/-- An odd byte (R24). -/
abbrev isOdd (b : Byte) : Prop := b.toNat % 2 = 1

/-- What holds of the engine before and after every command: mem in canonical form and a permutation (R22), w odd
(R25). `a ≤ 128` (R28) holds by its type. -/
structure Engine.Inv (e : Engine) : Prop where
  memWf : e.mem.wf = true
  memPermutation : e.mem.isPermutation
  wOdd : isOdd e.w

/-- The machine's invariant: the engine's, and ERRCODE is 0 exactly when ERR is 0 (R35). -/
structure State.Inv (s : State) : Prop where
  engine : s.engine.Inv
  errCode : s.errCode = none ↔ s.err = false

/-- A reading function with two indices exchanged, what swap(p, q) leaves (R12). -/
def exchanged (f : Byte → Byte) (p q x : Byte) : Byte := if x = p then f q else if x = q then f p else f x

/-- The next edge asserts the hardware reset (R240). -/
def State.resetsNext (s : State) : Prop := ∃ d rest, s.host = d :: rest ∧ d.rstN = false

/-- The command word the next edge transfers, if any (R70, R71). -/
def State.transfersNext (s : State) : Option CmdWord :=
  match s.host with
  | [] => none
  | d :: _ => if d.rstN && !offerBroken d.cmd s && !busy s then d.cmd else none

/-- n steps, stopping at the first refusal. -/
def runSteps : Nat → State → Host.Outcome State Fault Refusal
  | 0, s => .next s
  | n + 1, s =>
    match step s with
    | .next t => runSteps n t
    | .fault r => .fault r
    | .refused r => .refused r

/-- The command words transferred in the next n steps, in order. -/
def acceptedWords : Nat → State → List CmdWord
  | 0, _ => []
  | n + 1, s =>
    s.transfersNext.toList ++
      match step s with
      | .next t => acceptedWords n t
      | .fault _ => []
      | .refused _ => []

/-- How many bytes a word transferred in this state makes the engine emit (R150, R151, R204). -/
def emittedCount (s : State) (w : CmdWord) : Nat :=
  if s.err then 0
  else
    match decode w with
    | .legal (.squeeze n) => n
    | .legal (.squeezeXor _) => 1
    | .legal .reset => 0
    | .legal (.absorb _) => 0
    | .legal .absorbStop => 0
    | .legal (.absorbNumber _) => 0
    | .illegal _ => 0

/-- The end of a run (R256): no command left to send, none held on the port, OUTQ empty. -/
def runEnded (s : State) : Bool :=
  s.host.all (fun d => d.cmd.isNone) && s.offered.isNone && s.outq.isEmpty

/-- What is observed of a run (R256): the bytes the host took, in order, and STATUS. -/
def observation (s : State) : List Byte × Byte := (s.taken, statusByte s)

end Sys2Proof.Machine
end

