-- ==== Sys2Proof/Certificates/Slice0/Obligations.lean ====
section
/-! DEFINITION. The statements for the provers: what the numbered rules of the spec say the commands, the primitives,
the ports and the machine do. -/

open Sys2Proof Sys2Proof.Machine

/-! Encoding -/

/-- R75, R77, R82: the decoder reads back every command the encoder writes, with every operand one word can spell. -/
def Obligations.EncodedWordDecodesToItsCommand : Prop :=
  ∀ i : Instr, i.wellFormed = true → decode (encode i) = .legal i

/-- R75 to R78: a legal word is the encoding of the command it decodes to, so no legal word has a second spelling. -/
def Obligations.LegalWordIsItsCommandsEncoding : Prop :=
  ∀ (w : CmdWord) (i : Instr), decode w = .legal i → i.wellFormed = true ∧ encode i = w

/-- R78: the decode function line by line, on the raw bits of the word, and the opcode table's masks. -/
def Obligations.DecodeFollowsItsPseudocode : Prop :=
  ∀ w : CmdWord,
    (w.extractLsb' 56 8 ∉ [0x01#8, 0x02#8, 0x03#8, 0x04#8, 0x05#8, 0x06#8] →
      decode w = .illegal .illegalOpcode) ∧
    (w.extractLsb' 56 8 ∈ [0x01#8, 0x02#8, 0x03#8, 0x04#8, 0x05#8, 0x06#8] → w.extractLsb' 32 24 ≠ 0 →
      decode w = .illegal .reservedBits) ∧
    (w.extractLsb' 32 24 = 0 →
      (w.extractLsb' 56 8 = 0x01#8 →
        decode w = if w.extractLsb' 0 32 ≠ 0 then .illegal .reservedBits else .legal .reset) ∧
      (w.extractLsb' 56 8 = 0x02#8 →
        decode w = if w.extractLsb' 8 24 ≠ 0 then .illegal .reservedBits else .legal (.absorb (w.extractLsb' 0 8))) ∧
      (w.extractLsb' 56 8 = 0x03#8 →
        decode w = if w.extractLsb' 0 32 ≠ 0 then .illegal .reservedBits else .legal .absorbStop) ∧
      (w.extractLsb' 56 8 = 0x04#8 → decode w = .legal (.absorbNumber (w.extractLsb' 0 32).toNat)) ∧
      (w.extractLsb' 56 8 = 0x05#8 → decode w = .legal (.squeeze (w.extractLsb' 0 32).toNat)) ∧
      (w.extractLsb' 56 8 = 0x06#8 →
        decode w =
          if w.extractLsb' 8 24 ≠ 0 then .illegal .reservedBits else .legal (.squeezeXor (w.extractLsb' 0 8)))) ∧
    ((∃ i, decode w = .legal i) ↔
      ∃ r ∈ opcodeTable, r.value.extractLsb' 56 8 = w.extractLsb' 56 8 ∧ w &&& r.mask = r.value)

/-- R82: the encoding of each form as R82 spells it, and its examples. -/
def Obligations.EachFormEncodesAsSpelled : Prop :=
  encode .reset = 0x0100000000000000#64 ∧
  (∀ b : Byte, encode (.absorb b) = 0x0200000000000000#64 ||| b.zeroExtend 64) ∧
  encode .absorbStop = 0x0300000000000000#64 ∧
  (∀ n : Nat, n < 2 ^ 32 → encode (.absorbNumber n) = 0x0400000000000000#64 ||| BitVec.ofNat 64 n) ∧
  (∀ n : Nat, n < 2 ^ 32 → encode (.squeeze n) = 0x0500000000000000#64 ||| BitVec.ofNat 64 n) ∧
  (∀ d : Byte, encode (.squeezeXor d) = 0x0600000000000000#64 ||| d.zeroExtend 64) ∧
  encode (.absorb (BitVec.ofNat 8 'A'.toNat)) = 0x0200000000000041#64 ∧
  encode (.absorbNumber 32) = 0x0400000000000020#64 ∧
  encode (.squeeze 8) = 0x0500000000000008#64 ∧
  encode (.squeezeXor 0x48) = 0x0600000000000048#64

/-- R75, R76, R77: a word of each family, written out from the spec's encoding, decodes to the command it stands for; the
all-zero word, an undefined opcode and a set reserved bit decode to none. -/
def Obligations.SpecWordsDecode : Prop :=
  decode 0x0100000000000000#64 = .legal .reset ∧
  decode 0x0200000000000041#64 = .legal (.absorb 0x41) ∧
  decode 0x0300000000000000#64 = .legal .absorbStop ∧
  decode 0x04000000FFFFFFFF#64 = .legal (.absorbNumber 4294967295) ∧
  decode 0x0500000000000008#64 = .legal (.squeeze 8) ∧
  decode 0x06000000000000FF#64 = .legal (.squeezeXor 0xFF) ∧
  decode 0x0000000000000000#64 = .illegal .illegalOpcode ∧
  decode 0x07FFFFFF00000000#64 = .illegal .illegalOpcode ∧
  decode 0x0200000000000141#64 = .illegal .reservedBits ∧
  decode 0x0400000100000000#64 = .illegal .reservedBits

/-- R81 to R83: the assembler's line for each command, for every operand text it reads as a number, gives the command's
word, and is refused when b, d or n is out of the range R81 gives it; `.word` gives the raw word, and the wide forms give
the words of their expansion. The model's choices (log 15): `.word` of 2^64 or more, for which R81 gives no range, is
refused; and which blanks and digits a line and a number may have. -/
def Obligations.AssemblerSpellsEachCommand : Prop :=
  assembleLine "reset".toList = some [encode .reset] ∧
  assembleLine "absorb_stop".toList = some [encode .absorbStop] ∧
  ∀ (text : List Char) (n : Nat), parseNumber text = some n →
    assembleLine ("absorb ".toList ++ text) = (if n ≤ 255 then some [encode (.absorb (BitVec.ofNat 8 n))] else none) ∧
    assembleLine ("squeeze_xor ".toList ++ text) =
      (if n ≤ 255 then some [encode (.squeezeXor (BitVec.ofNat 8 n))] else none) ∧
    assembleLine ("absorb_number ".toList ++ text) =
      (if n ≤ 4294967295 then some [encode (.absorbNumber n)] else none) ∧
    assembleLine ("squeeze ".toList ++ text) = (if n ≤ 4294967295 then some [encode (.squeeze n)] else none) ∧
    assembleLine (".word ".toList ++ text) = (if n < 2 ^ 64 then some [BitVec.ofNat 64 n] else none) ∧
    assembleLine ("absorb_number.wide ".toList ++ text) = some ((expand (.absorbNumberWide n)).map encode) ∧
    assembleLine ("squeeze.wide ".toList ++ text) = some ((expand (.squeezeWide n)).map encode)

/-- R83: the lines of absorb.bytes and squeeze_xor.buf give the words of their expansion, for every list of operand texts
the assembler reads as numbers, spelled `b0, b1, ..`, and are refused when one operand is no u8 (R81); and for every
string literal. The model's choices (log 15): a string literal for squeeze_xor.buf, the mnemonic alone for the empty
list, and which texts are numbers. -/
def Obligations.AssemblerReadsByteLists : Prop :=
  (∀ operands : List (List Char × Nat), operands ≠ [] → (∀ o ∈ operands, parseNumber o.1 = some o.2) →
    let line := List.intercalate [',', ' '] (operands.map Prod.fst)
    let bytes : List Byte := operands.map fun o => BitVec.ofNat 8 o.2
    assembleLine ("absorb.bytes ".toList ++ line) =
      (if ∀ o ∈ operands, o.2 ≤ 255 then some ((expand (.absorbBytes bytes)).map encode) else none) ∧
    assembleLine ("squeeze_xor.buf ".toList ++ line) =
      (if ∀ o ∈ operands, o.2 ≤ 255 then some ((expand (.squeezeXorBuf bytes)).map encode) else none)) ∧
  (∀ chars : List Char, (∀ c ∈ chars, c.toNat < 128 ∧ c ≠ '"') →
    let bytes : List Byte := chars.map fun c => BitVec.ofNat 8 c.toNat
    assembleLine ("absorb.bytes \"".toList ++ chars ++ ['"']) = some ((expand (.absorbBytes bytes)).map encode) ∧
    assembleLine ("squeeze_xor.buf \"".toList ++ chars ++ ['"']) =
      some ((expand (.squeezeXorBuf bytes)).map encode)) ∧
  assembleLine "absorb.bytes".toList = some [] ∧ assembleLine "squeeze_xor.buf".toList = some [encode (.squeeze 0)]

/-! The step: ports and controller -/

/-- R70, R71, R78: when the host holds a legal word on the command port, no reset is asserted and OUTQ is empty, the
step is the command's meaning in the state the edge finds. What the step adds is the host's side alone: the edge is
taken off the host's list, no word is held any more, and a STATUS read of this edge gets the value before it. That a
read sees the state before the edge is the model's choice (log 2), that it counts a draw of the free value too (log 3),
and that the host's reads are kept in the state (log 14). -/
def Obligations.StepPerformsTheTransferredCommand : Prop :=
  ∀ (s : State) (d : HostDrive) (rest : List HostDrive) (w : CmdWord) (i : Instr),
    s.host = d :: rest → d.rstN = true → d.cmd = some w → s.outq = [] →
    (s.offered = none ∨ s.offered = some w) → decode w = .legal i →
    step s = exec i
      { s with
        host := rest
        offered := none
        statusReads := if d.readStatus then s.statusReads ++ [statusByte s] else s.statusReads
        statusDraws := if d.readStatus then s.statusDraws + 1 else s.statusDraws }

/-- R201: which words are illegal with which code, and all that accepting one does: the engine, OUTQ and what the host
took are the state's own, the word is consumed, and only ERR and the first ERRCODE are written. What a STATUS read of
the same edge adds is no part of R201 but the model's choice: the read is kept (log 14), sees the state before the edge
(log 2) and counts a draw of the free value (log 3). -/
def Obligations.IllegalWordSetsErrorAndNothingElse : Prop :=
  (∀ w : CmdWord, decode w = .illegal .illegalOpcode ↔
    w.extractLsb' 56 8 = 0x00#8 ∨ 0x07#8 ≤ w.extractLsb' 56 8) ∧
  (∀ w : CmdWord, decode w = .illegal .reservedBits ↔
    0x01#8 ≤ w.extractLsb' 56 8 ∧ w.extractLsb' 56 8 ≤ 0x06#8 ∧
      (w.extractLsb' 32 24 ≠ 0 ∨
        (w.extractLsb' 56 8 = 0x01#8 ∨ w.extractLsb' 56 8 = 0x03#8) ∧ w.extractLsb' 0 32 ≠ 0 ∨
        (w.extractLsb' 56 8 = 0x02#8 ∨ w.extractLsb' 56 8 = 0x06#8) ∧ w.extractLsb' 8 24 ≠ 0)) ∧
  ∀ (s : State) (d : HostDrive) (rest : List HostDrive) (w : CmdWord) (code : IllegalCode),
    s.host = d :: rest → d.rstN = true → d.cmd = some w → s.outq = [] →
    (s.offered = none ∨ s.offered = some w) → decode w = .illegal code →
    step s = .next
      { s with
        err := true
        errCode := if s.err then s.errCode else some code
        host := rest
        offered := none
        statusReads := if d.readStatus then s.statusReads ++ [statusByte s] else s.statusReads
        statusDraws := if d.readStatus then s.statusDraws + 1 else s.statusDraws }

/-- R203: an undefined opcode reports ILLEGAL_OPCODE whatever the reserved bits are. Across words: an illegal word that
finds ERR = 0 sets ERRCODE to its code, one that finds ERR = 1 changes nothing, and no word accepted while ERR = 1
changes ERRCODE, but for the legal RESET that ends the hold. -/
def Obligations.FirstIllegalCodeWins : Prop :=
  (∀ w : CmdWord, w.extractLsb' 56 8 ∉ [0x01#8, 0x02#8, 0x03#8, 0x04#8, 0x05#8, 0x06#8] →
    decode w = .illegal .illegalOpcode) ∧
  (∀ (s : State) (w : CmdWord) (code : IllegalCode), s.err = false → decode w = .illegal code →
    accept w s = .next { s with err := true, errCode := some code }) ∧
  (∀ (s : State) (w : CmdWord) (code : IllegalCode), s.err = true → decode w = .illegal code → accept w s = .next s) ∧
  ∀ (s t : State) (w : CmdWord), s.err = true → decode w ≠ .legal .reset → accept w s = .next t →
    t.err = true ∧ t.errCode = s.errCode

/-- R204: while ERR = 1 an accepted word is consumed with no effect, unless it is a legal RESET, which restores the
canonical state and clears the error. -/
def Obligations.HeldEngineDiscardsAllButReset : Prop :=
  ∀ (s : State) (w : CmdWord), s.err = true →
    accept w s =
      if decode w = .legal .reset then
        .next { s with engine := Engine.canonical, err := false, errCode := none }
      else .next s

/-- R34: over every step, ERR rises exactly when an illegal word transfers, falls exactly at a hardware reset or a legal
RESET, and while it stands ERRCODE, the engine state and the bytes for the host do not change: every other command is
discarded. -/
def Obligations.ErrorFlagIsSticky : Prop :=
  ∀ s t : State, step s = .next t →
    (s.err = false → (t.err = true ↔ ∃ w code, s.transfersNext = some w ∧ decode w = .illegal code)) ∧
    (s.err = true →
      (t.err = false ↔ s.resetsNext ∨ ∃ w, s.transfersNext = some w ∧ decode w = .legal .reset)) ∧
    (s.err = true → t.err = true →
      t.errCode = s.errCode ∧ t.engine = s.engine ∧ t.taken ++ t.outq = s.taken ++ s.outq)

/-- R71, R250: `cmd_ready` is 1 exactly when OUTQ is empty and no reset is asserted. R71 also has it 0 while a reset is
running: in the atomic reading of R241 and R253 there is no such interval, which is the model's (log 7). While OUTQ is not empty no command is
performed: the engine state and the error keep, a word on the command port is held, and the bytes the host has and will
get are the same. -/
def Obligations.BusyEngineAcceptsNoWord : Prop :=
  (∀ (rstN : Bool) (s : State), cmdReady rstN s = true ↔ rstN = true ∧ s.outq = []) ∧
  ∀ (s t : State) (d : HostDrive) (rest : List HostDrive),
    s.host = d :: rest → d.rstN = true → s.outq ≠ [] → step s = .next t →
    t.engine = s.engine ∧ t.err = s.err ∧ t.errCode = s.errCode ∧
    t.taken ++ t.outq = s.taken ++ s.outq ∧ (∀ w, d.cmd = some w → t.offered = some w)

/-- R72: `out_valid` and `out_data`, and the transfer of the head byte exactly when there is one and the host is
ready. -/
def Obligations.OutputTransferTakesTheHead : Prop :=
  (∀ s : State, outValid s = true ↔ s.outq ≠ []) ∧
  (∀ (s : State) (d : HostDrive) (rest : List HostDrive) (b : Byte) (q : List Byte),
    s.host = d :: rest → d.rstN = true → s.outq = b :: q → (s.offered = none ∨ s.offered = d.cmd) →
    outData s = some b ∧
    ∃ t, step s = .next t ∧ t.engine = s.engine ∧ t.host = rest ∧
      (d.outReady = true → t.outq = q ∧ t.taken = s.taken ++ [b]) ∧
      (d.outReady = false → t.outq = s.outq ∧ t.taken = s.taken)) ∧
  ∀ s t : State, step s = .next t → s.outq = [] → t.taken = s.taken

/-- R31, R72, R252: over every step without a hardware reset, the bytes the host has and will get only grow at the tail,
by as many bytes as the transferred command emits: none is dropped, duplicated or reordered. -/
def Obligations.NoOutputByteIsLostOrReordered : Prop :=
  ∀ s t : State, step s = .next t → ¬ s.resetsNext →
    ∃ bytes, t.taken ++ t.outq = s.taken ++ s.outq ++ bytes ∧
      bytes.length = (match s.transfersNext with
        | none => 0
        | some w => emittedCount s w)

/-- R240, R241, R42: the step whose edge samples `rst_n = 0` gives the canonical state, no error, an empty OUTQ and STATUS
0x00, from any state. The model's: STATUS is 0x00 at once, with no interval in which the reset runs (log 7); nothing
transfers on the edge of the reset, whatever `out_ready` is (log 2); and what the host took is kept in the state
(log 14). -/
def Obligations.HardwareResetRestoresEverything : Prop :=
  ∀ (s : State) (d : HostDrive) (rest : List HostDrive), s.host = d :: rest → d.rstN = false →
    ∃ t, step s = .next t ∧ (∀ x : Byte, t.engine.mem.read x = x) ∧
      t.engine.i = 0 ∧ t.engine.j = 0 ∧ t.engine.k = 0 ∧ t.engine.z = 0 ∧ t.engine.a = 0 ∧ t.engine.w = 1 ∧
      t.err = false ∧ t.errCode = none ∧ t.outq = [] ∧ statusByte t = 0x00 ∧
      t.host = rest ∧ t.taken = s.taken

/-- R42: the state after reset, and that the hardware reset and an accepted RESET both establish it. -/
def Obligations.BothResetsGiveTheCanonicalState : Prop :=
  (∀ x : Byte, State.reset.engine.mem.read x = x) ∧
  State.reset.engine.i = 0 ∧ State.reset.engine.j = 0 ∧ State.reset.engine.k = 0 ∧ State.reset.engine.z = 0 ∧
  State.reset.engine.a = 0 ∧ State.reset.engine.w = 1 ∧ statusByte State.reset = 0x00 ∧
  State.reset.err = false ∧ State.reset.errCode = none ∧ State.reset.outq = [] ∧
  (∀ s : State, (hardReset s).engine = State.reset.engine ∧ (hardReset s).err = State.reset.err ∧
    (hardReset s).errCode = State.reset.errCode ∧ (hardReset s).outq = State.reset.outq ∧
    statusByte (hardReset s) = 0x00) ∧
  (∀ s : State, s.outq = [] → ∃ t, exec .reset s = .next t ∧ t.engine = State.reset.engine ∧
    t.err = State.reset.err ∧ t.errCode = State.reset.errCode ∧ t.outq = [] ∧ statusByte t = 0x00)

/-- R32 to R37: the fields of STATUS; ABSORBING is stated only where BUSY = 0. -/
def Obligations.StatusRegisterLayout : Prop :=
  ∀ s : State,
    ((statusByte s).getLsbD 0 = true ↔ s.outq ≠ []) ∧
    (statusByte s).getLsbD 1 = s.err ∧
    (statusByte s).extractLsb' 2 2 = (match s.errCode with
      | none => 0#2
      | some .illegalOpcode => 1#2
      | some .reservedBits => 2#2) ∧
    (s.outq = [] → ((statusByte s).getLsbD 4 = true ↔ s.engine.a ≠ 0)) ∧
    (statusByte s).extractLsb' 5 3 = 0#3

/-- R73, R54: reading STATUS at an edge changes nothing of what the edge does; the host gets the value the port drives.
The model's: the value is that of the state before the edge (log 2), the read is kept in the state (log 14), and it adds
one to the counter of the free values (log 3). -/
def Obligations.StatusReadHasNoSideEffect : Prop :=
  ∀ (s t : State) (d : HostDrive) (rest : List HostDrive),
    step { s with host := { d with readStatus := false } :: rest } = .next t →
    step { s with host := { d with readStatus := true } :: rest } =
      .next { t with statusReads := t.statusReads ++ [statusByte s], statusDraws := t.statusDraws + 1 }

/-- R29: over every step, the engine state changes only at a hardware reset or by a performed command. -/
def Obligations.EngineChangesOnlyByCommandOrReset : Prop :=
  ∀ s t : State, step s = .next t → t.engine ≠ s.engine →
    s.resetsNext ∨ ∃ w i, s.transfersNext = some w ∧ decode w = .legal i ∧ (s.err = false ∨ i = .reset)

/-- R208, R255, U9: no state makes a step fail except one where the host changes or withdraws a held word. That this one
step is refused, and that withdrawing counts as changing, is the model's choice (log 4). -/
def Obligations.StepStopsOnlyOnAChangedOffer : Prop :=
  ∀ s : State,
    ((∃ t, step s = .next t) ∧
      ¬ ∃ d rest w, s.host = d :: rest ∧ d.rstN = true ∧ s.offered = some w ∧ d.cmd ≠ some w) ∨
    (step s = .refused .offerChanged ∧
      ∃ d rest w, s.host = d :: rest ∧ d.rstN = true ∧ s.offered = some w ∧ d.cmd ≠ some w)

/-- R218: with no command to perform (BUSY = 0) the engine is idle and keeps all its state; the second clause says so of
an edge that drives no word and finds OUTQ empty. The first clause is the model's choice (log 1): when the host's list
of drives is empty the step leaves the whole state, with OUTQ not empty and with a word held too, of which R218 does not
speak. -/
def Obligations.IdleEngineKeepsItsState : Prop :=
  ∀ (s : State) (d : HostDrive) (rest : List HostDrive),
    (s.host = [] → step s = .next s) ∧
    (s.host = d :: rest → d.rstN = true → d.cmd = none → d.readStatus = false → s.offered = none → s.outq = [] →
      step s = .next { s with host := rest })

/-- R252, R253: what the host receives and the final state depend only on the command words in order, not on when they
are sent, when the bytes are taken or when STATUS is read. Two runs from one state with no hardware reset that transfer
the same words agree on the engine, the error and the bytes; at the end of both, on the whole observation (R256). -/
def Obligations.OutputDoesNotDependOnWhenItIsTaken : Prop :=
  ∀ (s t₁ t₂ : State) (h₁ h₂ : List HostDrive) (n₁ n₂ : Nat),
    (∀ d ∈ h₁, d.rstN = true) → (∀ d ∈ h₂, d.rstN = true) →
    runSteps n₁ { s with host := h₁ } = .next t₁ → runSteps n₂ { s with host := h₂ } = .next t₂ →
    acceptedWords n₁ { s with host := h₁ } = acceptedWords n₂ { s with host := h₂ } →
    t₁.engine = t₂.engine ∧ t₁.err = t₂.err ∧ t₁.errCode = t₂.errCode ∧
      t₁.taken ++ t₁.outq = t₂.taken ++ t₂.outq ∧
      (runEnded t₁ = true → runEnded t₂ = true → observation t₁ = observation t₂)

/-! Invariants -/

/-- R22, R25, R35 at reset. -/
def Obligations.ResetStateMeetsTheInvariant : Prop := State.reset.Inv

/-- R22, R24, R35: every step keeps mem a permutation in canonical form, w odd, and ERRCODE 0 exactly when ERR is 0. -/
def Obligations.EveryStepKeepsTheInvariant : Prop :=
  ∀ s t : State, s.Inv → step s = .next t → t.Inv

/-- R107: each primitive keeps mem a permutation. The canonical form of the list, kept too, is the model's (log 9). -/
def Obligations.EachPrimitiveKeepsMemAPermutation : Prop :=
  ∀ e : Engine, e.mem.wf = true → e.mem.isPermutation →
    (∀ n, (update n e).mem.wf = true ∧ (update n e).mem.isPermutation) ∧
    (∀ n, (whip n e).mem.wf = true ∧ (whip n e).mem.isPermutation) ∧
    ((crush e).mem.wf = true ∧ (crush e).mem.isPermutation) ∧
    ((shuffle e).mem.wf = true ∧ (shuffle e).mem.isPermutation) ∧
    (∀ x, (absorbNibble x e).mem.wf = true ∧ (absorbNibble x e).mem.isPermutation) ∧
    ((dripOne e).mem.wf = true ∧ (dripOne e).mem.isPermutation)

/-- R25: w is odd at reset and after every step, 255 + 2 wraps to 1, and because w is odd the rounds of update bring i to
every index within 256 rounds. -/
def Obligations.OddWVisitsEveryIndex : Prop :=
  State.reset.engine.w = 1 ∧ (255 : Byte) + 2 = 1 ∧
  (∀ s t : State, isOdd s.engine.w → step s = .next t → isOdd t.engine.w) ∧
  ∀ e : Engine, isOdd e.w → Nat.Coprime e.w.toNat 256 ∧ ∀ x : Byte, ∃ n < 256, (update n e).i = x

/-- R26, R28: how a counts. An absorbed nibble and a stop each add 1, or leave 1 after the forced shuffle, so a reaches
128 only from 127. -/
def Obligations.CountReaches128OnlyFrom127 : Prop :=
  ∀ (e : Engine) (x : Nibble),
    (absorbNibble x e).a.val = (if e.a.val = 128 then 1 else e.a.val + 1) ∧
    (absorbStop e).a.val = (if e.a.val = 128 then 1 else e.a.val + 1) ∧
    ((absorbNibble x e).a.val = 128 ↔ e.a.val = 127) ∧ ((absorbStop e).a.val = 128 ↔ e.a.val = 127)

/-! Primitives -/

/-- R100: what update does, round by round, with its worked examples. -/
def Obligations.UpdateRoundFollowsItsPseudocode : Prop :=
  (∀ e : Engine, update 0 e = e) ∧
  (∀ (e : Engine) (n : Nat), update (n + 1) e = update 1 (update n e)) ∧
  (∀ e : Engine, e.mem.wf = true →
    (update 1 e).i = e.i + e.w ∧
    (update 1 e).j = e.k + e.mem.read (e.j + e.mem.read (e.i + e.w)) ∧
    (update 1 e).k = (e.i + e.w) + e.k + e.mem.read (update 1 e).j ∧
    (∀ x : Byte, (update 1 e).mem.read x = exchanged e.mem.read (update 1 e).i (update 1 e).j x) ∧
    ((update 1 e).i = (update 1 e).j → (update 1 e).mem = e.mem) ∧
    (update 1 e).w = e.w ∧ (update 1 e).z = e.z ∧ (update 1 e).a = e.a) ∧
  update 1 Engine.canonical = { Engine.canonical with i := 1, j := 1, k := 2 } ∧
  (update 2 Engine.canonical).i = 2 ∧ (update 2 Engine.canonical).j = 5 ∧ (update 2 Engine.canonical).k = 9 ∧
  (update 2 Engine.canonical).mem.read 2 = 5 ∧ (update 2 Engine.canonical).mem.read 5 = 2

/-- R101, R103: whip is update and then `w <- w + 2`, and shuffle is three whips of 512 rounds with two crushes between
them and then `a <- 0`; with whip's worked example and its wrap. -/
def Obligations.WhipAndShuffleFollowTheirPseudocode : Prop :=
  (∀ (amount : Nat) (e : Engine), whip amount e = { update amount e with w := e.w + 2 }) ∧
  (∀ e : Engine, shuffle e = { whip 512 (crush (whip 512 (crush (whip 512 e)))) with a := 0 }) ∧
  whip 1 Engine.canonical = { Engine.canonical with i := 1, j := 1, k := 2, w := 3 } ∧
  ∀ e : Engine, e.w = 255 → (whip 0 e).w = 1

/-- R108: i and w after update, whip and shuffle. -/
def Obligations.UpdateAdvancesIByTimesW : Prop :=
  (∀ (n : Nat) (e : Engine), (update n e).i = e.i + BitVec.ofNat 8 n * e.w) ∧
  (∀ e : Engine, (whip 512 e).i = e.i) ∧
  (∀ e : Engine, (shuffle e).i = e.i ∧ (shuffle e).w = e.w + 6)

/-- R102: crush leaves the smaller byte of each pair (v, 255 - v) below and the larger above, and writes nothing but
mem; a pair in order is left as it is. -/
def Obligations.CrushOrdersEachPair : Prop :=
  ∀ e : Engine, e.mem.wf = true →
    (∀ v : Byte, v < 128 →
      (crush e).mem.read v = (if e.mem.read v > e.mem.read (255 - v) then e.mem.read (255 - v) else e.mem.read v) ∧
      (crush e).mem.read (255 - v) =
        (if e.mem.read v > e.mem.read (255 - v) then e.mem.read v else e.mem.read (255 - v))) ∧
    (crush e).i = e.i ∧ (crush e).j = e.j ∧ (crush e).k = e.k ∧ (crush e).z = e.z ∧ (crush e).a = e.a ∧
    (crush e).w = e.w

/-- R109: the order of the pairs does not matter, after crush each pair is strictly in order, and a second crush changes
nothing. -/
def Obligations.CrushIsOrderFreeAndIdempotent : Prop :=
  (∀ (m : Memory) (order : List Nat), m.wf = true → order.Perm (List.range 128) →
    order.foldl (fun m v => crushPair m (BitVec.ofNat 8 v)) m = crushPairs 128 m) ∧
  (∀ e : Engine, e.mem.wf = true → e.mem.isPermutation →
    ∀ v : Byte, v < 128 → (crush e).mem.read v < (crush e).mem.read (255 - v)) ∧
  (∀ e : Engine, e.mem.wf = true → crush (crush e) = crush e)

/-- R110: shuffle reads neither a nor z, keeps z and sets a to 0; so a stop at a in 1..127 just before a squeeze changes
nothing of what the squeeze leaves, its output bytes among it. -/
def Obligations.ShuffleReadsNeitherANorZ : Prop :=
  (∀ (e : Engine) (a : Fin 129) (z : Byte), shuffle { e with a := a, z := z } = { shuffle e with z := z }) ∧
  (∀ e : Engine, (shuffle e).a = 0 ∧ (shuffle e).z = e.z) ∧
  ∀ (s : State) (n : Nat), s.err = false → 1 ≤ s.engine.a.val → s.engine.a.val ≤ 127 →
    (∃ t, exec (.squeeze n) s = .next t ∧ execAll [.absorbStop, .squeeze n] s = .next t) ∧
    ∀ d : Byte, ∃ t, exec (.squeezeXor d) s = .next t ∧ execAll [.absorbStop, .squeezeXor d] s = .next t

/-- R104: absorb_nibble shuffles first when a = 128, then exchanges `mem[a]` with `mem[128 + x]`, two indices that always
differ, and counts. -/
def Obligations.AbsorbNibbleSwapsOnePair : Prop :=
  ∀ (e : Engine) (x : Nibble), e.mem.wf = true →
    let r := if e.a.val = 128 then shuffle e else e
    let p : Byte := BitVec.ofNat 8 r.a.val
    let q : Byte := 128 + x.zeroExtend 8
    r.a.val ≤ 127 ∧ p ≠ q ∧
    (∀ y : Byte, (absorbNibble x e).mem.read y = exchanged r.mem.read p q y) ∧
    (absorbNibble x e).a.val = r.a.val + 1 ∧
    (absorbNibble x e).i = r.i ∧ (absorbNibble x e).j = r.j ∧ (absorbNibble x e).k = r.k ∧
    (absorbNibble x e).z = e.z ∧ (absorbNibble x e).w = r.w

/-- R106: drip_one is one round of update and then the nested read that makes the new z; nothing else changes. -/
def Obligations.DripOneFollowsItsPseudocode : Prop :=
  (∀ e : Engine,
    let u := update 1 e
    dripOne e = { u with z := u.mem.read (u.j + u.mem.read (u.i + u.mem.read (e.z + u.k))) } ∧
    (dripOne e).a = e.a ∧ (dripOne e).w = e.w) ∧
  dripOne Engine.canonical = { Engine.canonical with i := 1, j := 1, k := 2, z := 4 }

/-! Commands: results, completion and frames -/

/-- R170: RESET from any state, the error hold included, with its frame, its illegal spellings and its example. -/
def Obligations.ResetCommandRestoresTheCanonicalState : Prop :=
  (∀ s : State, ∃ t, exec .reset s = .next t ∧ (∀ x : Byte, t.engine.mem.read x = x) ∧
    t.engine.i = 0 ∧ t.engine.j = 0 ∧ t.engine.k = 0 ∧ t.engine.z = 0 ∧ t.engine.a = 0 ∧ t.engine.w = 1 ∧
    t.err = false ∧ t.errCode = none ∧ absorbing t.engine = false ∧
    t = { s with engine := t.engine, err := false, errCode := none } ∧
    (s.engine = Engine.canonical → s.err = false → s.errCode = none → t = s)) ∧
  (∀ w : CmdWord, w.extractLsb' 56 8 = 0x01#8 → w ≠ 0x0100000000000000#64 → decode w = .illegal .reservedBits) ∧
  (∀ s : State, ∃ t, execAll [.reset, .squeeze 1] s = .next t ∧ t.outq = s.outq ++ [0x04])

/-- R171: after RESET, the engine, the error and every later output byte depend only on the commands after it. -/
def Obligations.ResetForgetsAllHistory : Prop :=
  ∀ (s₁ s₂ : State) (commands : List Instr), ∃ t₁ t₂ bytes,
    execAll (.reset :: commands) s₁ = .next t₁ ∧ execAll (.reset :: commands) s₂ = .next t₂ ∧
    t₁.engine = t₂.engine ∧ t₁.err = false ∧ t₂.err = false ∧ t₁.errCode = t₂.errCode ∧
    t₁.outq = s₁.outq ++ bytes ∧ t₂.outq = s₂.outq ++ bytes

/-- R130, R105: ABSORB b. Its words, and the words that are illegal; with room for both nibbles it is two exchanges; at
a = 127 a shuffle comes between them; at a = 128 it comes first. The frame: nothing outside mem, a and what the shuffle
writes. -/
def Obligations.AbsorbSwapsBothNibbles : Prop :=
  (∀ w : CmdWord, w.extractLsb' 56 8 = 0x02#8 →
    decode w = if w.extractLsb' 32 24 = 0 ∧ w.extractLsb' 8 24 = 0 then .legal (.absorb (w.extractLsb' 0 8))
      else .illegal .reservedBits) ∧
  ∀ (s : State) (b : Byte), s.err = false → s.engine.mem.wf = true →
    let e := s.engine
    let low : Byte := 128 + (b &&& 0xF)
    let high : Byte := 128 + (b >>> 4)
    ∃ t, exec (.absorb b) s = .next t ∧ t = { s with engine := t.engine } ∧
      t.engine.z = e.z ∧ absorbing t.engine = true ∧
      (e.a.val ≤ 126 →
        t.engine.a.val = e.a.val + 2 ∧
        t.engine.i = e.i ∧ t.engine.j = e.j ∧ t.engine.k = e.k ∧ t.engine.w = e.w ∧
        ∀ x : Byte, t.engine.mem.read x =
          exchanged (exchanged e.mem.read (BitVec.ofNat 8 e.a.val) low) (BitVec.ofNat 8 (e.a.val + 1)) high x) ∧
      (e.a.val = 127 →
        let r := shuffle { e with mem := e.mem.swap 127 low, a := 128 }
        t.engine.a = 1 ∧ t.engine.i = r.i ∧ t.engine.j = r.j ∧ t.engine.k = r.k ∧ t.engine.w = r.w ∧
        ∀ x : Byte, t.engine.mem.read x = exchanged r.mem.read 0 high x) ∧
      (e.a.val = 128 →
        let r := shuffle e
        t.engine.a = 2 ∧ t.engine.i = r.i ∧ t.engine.j = r.j ∧ t.engine.k = r.k ∧ t.engine.w = r.w ∧
        ∀ x : Byte, t.engine.mem.read x = exchanged (exchanged r.mem.read 0 low) 1 high x)

/-- R131: ABSORB_STOP, its words, and the words that are illegal; it counts without touching mem, or leaves 1 after the
forced shuffle; nothing else changes. -/
def Obligations.AbsorbStopCountsWithoutASwap : Prop :=
  (∀ w : CmdWord, w.extractLsb' 56 8 = 0x03#8 →
    decode w = if w.extractLsb' 0 56 = 0 then .legal .absorbStop else .illegal .reservedBits) ∧
  ∀ s : State, s.err = false →
    ∃ t, exec .absorbStop s = .next t ∧ t = { s with engine := t.engine } ∧ absorbing t.engine = true ∧
      (s.engine.a.val < 128 →
        t.engine.a.val = s.engine.a.val + 1 ∧ t.engine = { s.engine with a := t.engine.a }) ∧
      (s.engine.a.val = 128 → t.engine = { shuffle s.engine with a := 1 })

/-- R132: ABSORB_NUMBER n, its words, and the words that are illegal; it is ABSORB of the minimal little-endian base-256
bytes of n, at least one, in order. Stated for every n; one word spells those below 2^32. -/
def Obligations.AbsorbNumberAbsorbsItsMinimalBytes : Prop :=
  (∀ w : CmdWord, w.extractLsb' 56 8 = 0x04#8 →
    decode w = if w.extractLsb' 32 24 = 0 then .legal (.absorbNumber (w.extractLsb' 0 32).toNat)
      else .illegal .reservedBits) ∧
  ∀ (s : State) (n : Nat), s.err = false →
    ∃ (bytes : List Byte) (t : State),
      exec (.absorbNumber n) s = .next t ∧ execAll (bytes.map .absorb) s = .next t ∧
      absorbing t.engine = true ∧
      bytes.foldr (fun b m => b.toNat + 256 * m) 0 = n ∧
      (n = 0 → bytes = [0]) ∧ (n ≠ 0 → bytes ≠ [] ∧ bytes.getLast? ≠ some 0) ∧
      (n ≤ 255 → bytes.length = 1) ∧ (256 ≤ n → n ≤ 65535 → bytes.length = 2) ∧
      (65536 ≤ n → n ≤ 16777215 → bytes.length = 3) ∧ (16777216 ≤ n → n ≤ 4294967295 → bytes.length = 4)

/-- R150: SQUEEZE n, its words, and the words that are illegal; it makes the phase check once, then emits the z of n
successive drips; a is 0 afterwards, and i and w are as R108 has them. The frame: nothing outside the engine and OUTQ.
Last its worked example, with the w of C1. -/
def Obligations.SqueezeEmitsSuccessiveDrips : Prop :=
  (∀ w : CmdWord, w.extractLsb' 56 8 = 0x05#8 →
    decode w = if w.extractLsb' 32 24 = 0 then .legal (.squeeze (w.extractLsb' 0 32).toNat)
      else .illegal .reservedBits) ∧
  (∀ (s : State) (n : Nat), s.err = false →
    let e := if s.engine.a.val > 0 then shuffle s.engine else s.engine
    ∃ t, exec (.squeeze n) s = .next t ∧ t = { s with engine := t.engine, outq := t.outq } ∧
      t.engine = dripOne^[n] e ∧
      t.outq = s.outq ++ (List.range n).map (fun m => (dripOne^[m + 1] e).z) ∧
      t.engine.a = 0 ∧
      t.engine.w = (if s.engine.a.val > 0 then s.engine.w + 6 else s.engine.w) ∧
      t.engine.i = s.engine.i + BitVec.ofNat 8 n * t.engine.w) ∧
  exec (.squeeze 1) State.reset = .next
    { State.reset with engine := { Engine.canonical with i := 1, j := 1, k := 2, z := 4 }, outq := [0x04] }

/-- R151: SQUEEZE_XOR d, its words, and the words that are illegal; it makes the phase check and emits d XORed with one
drip. It leaves what SQUEEZE 1 leaves, with its one byte XORed with d; so d = 0 is SQUEEZE 1, and the same keystream byte
twice restores d. -/
def Obligations.SqueezeXorIsSqueezeOneXored : Prop :=
  (∀ w : CmdWord, w.extractLsb' 56 8 = 0x06#8 →
    decode w = if w.extractLsb' 32 24 = 0 ∧ w.extractLsb' 8 24 = 0 then .legal (.squeezeXor (w.extractLsb' 0 8))
      else .illegal .reservedBits) ∧
  ∀ s : State, s.err = false →
    let e := if s.engine.a.val > 0 then shuffle s.engine else s.engine
    let key : Byte := (dripOne e).z
    (∀ d : Byte, exec (.squeezeXor d) s = .next { s with engine := dripOne e, outq := s.outq ++ [d ^^^ key] }) ∧
    absorbing (dripOne e) = false ∧
    exec (.squeezeXor 0) s = exec (.squeeze 1) s ∧
    ∀ d : Byte, exec (.squeezeXor (d ^^^ key)) s = .next { s with engine := dripOne e, outq := s.outq ++ [d] }

/-- R153: consecutive squeezes add up, and `squeeze.wide n` has the effect of the source's squeeze(n) for every n, from
any state. -/
def Obligations.ConsecutiveSqueezesAddUp : Prop :=
  (∀ (s : State) (p q : Nat), execAll [.squeeze p, .squeeze q] s = exec (.squeeze (p + q)) s) ∧
  ∀ (s : State) (n : Nat), execAll (expand (.squeezeWide n)) s = exec (.squeeze n) s ∧
    ∀ i ∈ expand (.squeezeWide n), i.wellFormed = true

/-- R154: SQUEEZE 0 shuffles when a > 0 and emits nothing; with a = 0 it changes nothing; it is the empty
squeeze_xor.buf. -/
def Obligations.SqueezeZeroStillShuffles : Prop :=
  ∀ s : State, s.err = false →
    (0 < s.engine.a.val → exec (.squeeze 0) s = .next { s with engine := shuffle s.engine }) ∧
    (s.engine.a.val = 0 → exec (.squeeze 0) s = .next s) ∧
    execAll (expand (.squeezeXorBuf [])) s = exec (.squeeze 0) s

/-- R108, R135, R204: the frame of the absorb family. Nothing outside the engine changes, z is kept, and so is i, which
even a forced shuffle leaves; while ERR = 1 nothing changes, otherwise a ≥ 1 afterwards; z is not read either: with
another z all the rest comes out the same. (What j, k and w keep when no
shuffle is forced: `AbsorbStoresOnlyAtItsPositions`.) -/
def Obligations.AbsorbFamilyFrame : Prop :=
  ∀ (i : Instr) (s t : State),
    ((∃ b, i = .absorb b) ∨ i = .absorbStop ∨ ∃ n, i = .absorbNumber n) → exec i s = .next t →
    t = { s with engine := t.engine } ∧ t.engine.z = s.engine.z ∧ t.engine.i = s.engine.i ∧
    (s.err = true → t = s) ∧ (s.err = false → 1 ≤ t.engine.a.val) ∧
    ∀ z : Byte, exec i { s with engine := { s.engine with z := z } } =
      .next { t with engine := { t.engine with z := z } }

/-- R51, R104: the bytes ABSORB and ABSORB_NUMBER store when no shuffle is forced: the positions a .. a + 2L - 1 and the
nibble targets of their bytes. Every other byte reads as before; ABSORB_STOP stores none. -/
def Obligations.AbsorbStoresOnlyAtItsPositions : Prop :=
  (∀ (i : Instr) (bytes : List Byte) (s t : State), s.err = false → s.engine.mem.wf = true →
    ((∃ b, i = .absorb b ∧ bytes = [b]) ∨ ∃ n, i = .absorbNumber n ∧ bytes = numberBytes n) →
    s.engine.a.val + 2 * bytes.length ≤ 128 → exec i s = .next t →
    t.engine.a.val = s.engine.a.val + 2 * bytes.length ∧
    t.engine.i = s.engine.i ∧ t.engine.j = s.engine.j ∧ t.engine.k = s.engine.k ∧ t.engine.w = s.engine.w ∧
    ∀ x : Byte, (x.toNat < s.engine.a.val ∨ s.engine.a.val + 2 * bytes.length ≤ x.toNat) →
      (∀ b ∈ bytes, x ≠ nibbleIndex (lowNibble b) ∧ x ≠ nibbleIndex (highNibble b)) →
      t.engine.mem.read x = s.engine.mem.read x) ∧
  ∀ s t : State, s.engine.a.val < 128 → exec .absorbStop s = .next t →
    ∀ x : Byte, t.engine.mem.read x = s.engine.mem.read x

/-- R100, R150, R151: the bytes a squeeze stores after its phase check: the indices i and j of each round. Every other
byte reads as the phase check left it. -/
def Obligations.SqueezeStoresOnlyAtItsRounds : Prop :=
  ∀ (i : Instr) (n : Nat) (s t : State), s.err = false → s.engine.mem.wf = true →
    (i = .squeeze n ∨ n = 1 ∧ ∃ d, i = .squeezeXor d) → exec i s = .next t →
    let e := if s.engine.a.val > 0 then shuffle s.engine else s.engine
    t = { s with engine := t.engine, outq := t.outq } ∧
    ∀ x : Byte, (∀ m < n, x ≠ (update (m + 1) e).i ∧ x ≠ (update (m + 1) e).j) →
      t.engine.mem.read x = e.mem.read x

/-! Pseudo-instructions and the source's operations -/

/-- R133, R204: `absorb.bytes` has the effect of the source's absorb(bytes), the empty sequence included. That the source's
call does nothing while ERR = 1, as the commands do (R204), is the model's choice: the source has no error hold
(log 16). -/
def Obligations.AbsorbBytesIsTheSourcesAbsorb : Prop :=
  ∀ (s : State) (bytes : List Byte),
    execAll (expand (.absorbBytes bytes)) s = .next (sourceAbsorb bytes s) ∧
    (bytes = [] → expand (.absorbBytes bytes) = [])

/-- R134: `absorb_number.wide n` has the effect of R132's loop run on n, from any state, and only uses operands one word
can spell; for n below 2^32 the absorb.bytes expansion gives the same state. -/
def Obligations.AbsorbNumberWideIsTheSourcesLoop : Prop :=
  ∀ (s : State) (n : Nat),
    execAll (expand (.absorbNumberWide n)) s = exec (.absorbNumber n) s ∧
    execAll (expand (.absorbBytes (numberBytes n))) s = exec (.absorbNumber n) s ∧
    ∀ i ∈ expand (.absorbNumberWide n), i.wellFormed = true

/-- R152, R204: `squeeze_xor.buf` makes one phase check in effect, as the source's call does, and emits one byte per buffer
position, which the host writes back in place. That the source's call does nothing while ERR = 1, as the commands do
(R204), is the model's choice: the source has no error hold (log 16). -/
def Obligations.SqueezeXorBufIsTheSourcesCall : Prop :=
  ∀ (s : State) (buffer : List Byte),
    execAll (expand (.squeezeXorBuf buffer)) s = .next (sourceSqueezeXor buffer s) ∧
    (s.err = false → ∃ bytes, (sourceSqueezeXor buffer s).outq = s.outq ++ bytes ∧
      bytes.length = buffer.length ∧ writeBack buffer bytes = bytes)

/-- R151, V-P6: from one state, squeezing a plaintext through SQUEEZE_XOR and then the ciphertext the same way gives the
plaintext back, and both halves leave the same engine. -/
def Obligations.SqueezeXorDecryptsWhatItEncrypts : Prop :=
  ∀ (s : State) (plain : List Byte), s.err = false →
    ∃ (t u : State) (cipher : List Byte),
      execAll (plain.map .squeezeXor) s = .next t ∧ t.outq = s.outq ++ cipher ∧ cipher.length = plain.length ∧
      execAll (cipher.map .squeezeXor) s = .next u ∧ u.outq = s.outq ++ plain ∧ u.engine = t.engine

/-- R206: the host driver sends no command for a negative number, and for any other the commands have the source's
effect. -/
def Obligations.DriverRejectsNegativeNumbers : Prop :=
  (∀ n : Int, n < 0 → driverAbsorbNumber n = none) ∧
  ∀ (n : Nat) (s : State), ∃ commands, driverAbsorbNumber n = some commands ∧
    execAll commands s = exec (.absorbNumber n) s

/-! Operation counts -/

/-- R112: the rounds of update and whip, the compare steps of crush, both of shuffle, and drip_one's round and reads,
each beside the engine the primitive itself leaves. The data change no count. That the fourth read of drip_one is that of
the z it returns is the model's reading (log 20). -/
def Obligations.PrimitivesPerformTheirOperationCounts : Prop :=
  ∀ c : Counted,
    (∀ times : Nat, countedUpdate times c =
      { engine := update times c.engine, work := { c.work with rounds := c.work.rounds + times } }) ∧
    countedWhip 512 c = { engine := whip 512 c.engine, work := { c.work with rounds := c.work.rounds + 512 } } ∧
    countedCrush c = { engine := crush c.engine, work := { c.work with compares := c.work.compares + 128 } } ∧
    countedShuffle c =
      { engine := shuffle c.engine
        work := { c.work with rounds := c.work.rounds + 3 * 512, compares := c.work.compares + 2 * 128 } } ∧
    countedDrip c =
      { engine := dripOne c.engine
        work := { c.work with
          rounds := c.work.rounds + 1
          nestedReads := c.work.nestedReads + 3
          finalReads := c.work.finalReads + 1 } }

/-- R260, R261: the work of every command is finite and known. The counted command leaves the engine of the command
itself; a squeeze is at most one shuffle and its drips; ABSORB_NUMBER is at most four bytes with at most one shuffle,
which comes exactly when its nibbles do not fit; absorbing forces no shuffle before 128 nibbles. (drip_one's reads as in
log 20.) -/
def Obligations.WorkOfOneCommandIsBounded : Prop :=
  let shuffled : Work := { Work.zero with rounds := 1536, compares := 256 }
  (∀ (i : Instr) (s : State) (w : Work), s.err = false →
    ∃ t, exec i s = .next t ∧ (countedCommand i { engine := s.engine, work := w }).engine = t.engine) ∧
  ∀ e : Engine,
    let start : Counted := { engine := e, work := Work.zero }
    let check : Work := if e.a.val > 0 then shuffled else Work.zero
    (countedCommand .reset start).work = Work.zero ∧
    (∀ b : Byte, (countedCommand (.absorb b) start).work = if 127 ≤ e.a.val then shuffled else Work.zero) ∧
    (countedCommand .absorbStop start).work = (if e.a.val = 128 then shuffled else Work.zero) ∧
    (∀ n : Nat, n < 2 ^ 32 → (numberBytes n).length ≤ 4 ∧
      (countedCommand (.absorbNumber n) start).work =
        if 128 < e.a.val + 2 * (numberBytes n).length then shuffled else Work.zero) ∧
    (∀ n : Nat, (countedCommand (.squeeze n) start).work =
      { check with rounds := check.rounds + n, nestedReads := 3 * n, finalReads := n }) ∧
    (∀ d : Byte, (countedCommand (.squeezeXor d) start).work =
      { check with rounds := check.rounds + 1, nestedReads := 3, finalReads := 1 }) ∧
    ∀ bytes : List Byte, e.a.val + 2 * bytes.length ≤ 128 → (countedBytes bytes start).work = Work.zero
end

