-- ==== Sys2Proof/Laws/Memory.lean ====
section
/-! SUPPORT. The laws of mem: read after write, swap as an exchange, the canonical form kept by every operation, and
equality of canonical memories by their readings. -/

namespace Sys2Proof.Machine

theorem Memory.wfFrom_mono {low low' : Nat} (h : low' ≤ low) :
    ∀ m : Memory, Memory.wfFrom low m = true → Memory.wfFrom low' m = true
  | [], _ => rfl
  | c :: rest, hm => by
    simp only [Memory.wfFrom, Bool.and_eq_true, decide_eq_true_eq] at hm ⊢
    exact ⟨⟨⟨by omega, hm.1.1.2⟩, hm.1.2⟩, hm.2⟩

/-- An address below every listed one reads as its reset value. -/
theorem Memory.lookup_below {addr low : Nat} (h : addr < low) :
    ∀ m : Memory, Memory.wfFrom low m = true → Memory.lookup addr m = Memory.resetByte addr
  | [], _ => rfl
  | c :: rest, hm => by
    simp only [Memory.wfFrom, Bool.and_eq_true, decide_eq_true_eq] at hm
    rw [Memory.lookup, if_neg (by omega)]
    exact Memory.lookup_below (by omega) rest hm.2

theorem Memory.lookup_entry_append (addr at_ : Nat) (v : Byte) (m : Memory)
    (h : Memory.lookup addr m = Memory.resetByte addr) :
    Memory.lookup at_ (Memory.entry addr v ++ m) = if at_ = addr then v else Memory.lookup at_ m := by
  by_cases hv : v = Memory.resetByte addr
  · by_cases ha : at_ = addr
    · simp [Memory.entry, hv, ha, h]
    · simp [Memory.entry, hv, ha]
  · by_cases ha : at_ = addr
    · simp [Memory.entry, hv, ha, Memory.lookup]
    · have : ¬ addr = at_ := fun e => ha e.symm
      simp [Memory.entry, hv, ha, this, Memory.lookup]

/-- Reading after a write (R12). -/
theorem Memory.lookup_put (addr at_ : Nat) (v : Byte) :
    ∀ (m : Memory) (low : Nat), Memory.wfFrom low m = true →
      Memory.lookup at_ (Memory.put addr v m) = if at_ = addr then v else Memory.lookup at_ m
  | [], _, _ => by
    have := Memory.lookup_entry_append addr at_ v [] rfl
    simpa [Memory.put] using this
  | c :: rest, low, hm => by
    simp only [Memory.wfFrom, Bool.and_eq_true, decide_eq_true_eq] at hm
    by_cases hlt : c.1 < addr
    · have ih := Memory.lookup_put addr at_ v rest _ hm.2
      by_cases hc : c.1 = at_
      · rw [Memory.put, if_pos hlt, Memory.lookup, Memory.lookup, if_pos hc, if_pos hc, if_neg (by omega)]
      · rw [Memory.put, if_pos hlt, Memory.lookup, Memory.lookup, if_neg hc, if_neg hc, ih]
    · rw [Memory.put, if_neg hlt]
      by_cases he : c.1 = addr
      · rw [if_pos he, Memory.lookup_entry_append _ _ _ _ (Memory.lookup_below (by omega) rest hm.2)]
        by_cases ha : at_ = addr
        · simp [ha]
        · simp [ha, Memory.lookup, show ¬ c.1 = at_ by omega]
      · rw [if_neg he]
        refine Memory.lookup_entry_append _ _ _ _ ?_
        rw [Memory.lookup, if_neg he]
        exact Memory.lookup_below (by omega) rest hm.2

theorem Memory.wfFrom_entry_append {addr low : Nat} (v : Byte) (m : Memory) (hl : low ≤ addr) (ha : addr < 256)
    (hm : Memory.wfFrom (addr + 1) m = true) : Memory.wfFrom low (Memory.entry addr v ++ m) = true := by
  by_cases hv : v = Memory.resetByte addr
  · simpa [Memory.entry, hv] using Memory.wfFrom_mono (by omega) m hm
  · simp [Memory.entry, hv, Memory.wfFrom, hl, ha, hm]

theorem Memory.wfFrom_put (addr : Nat) (v : Byte) (ha : addr < 256) :
    ∀ (m : Memory) (low : Nat), low ≤ addr → Memory.wfFrom low m = true →
      Memory.wfFrom low (Memory.put addr v m) = true
  | [], low, hl, _ => by
    have := Memory.wfFrom_entry_append (low := low) v [] hl ha rfl
    simpa [Memory.put] using this
  | c :: rest, low, hl, hm => by
    simp only [Memory.wfFrom, Bool.and_eq_true, decide_eq_true_eq] at hm
    by_cases hlt : c.1 < addr
    · have ih := Memory.wfFrom_put addr v ha rest (c.1 + 1) (by omega) hm.2
      simp only [Memory.put, if_pos hlt, Memory.wfFrom, Bool.and_eq_true, decide_eq_true_eq]
      exact ⟨hm.1, ih⟩
    · rw [Memory.put, if_neg hlt]
      refine Memory.wfFrom_entry_append v _ hl ha ?_
      by_cases he : c.1 = addr
      · rw [if_pos he]; rw [← he]; exact hm.2
      · rw [if_neg he]
        simp only [Memory.wfFrom, Bool.and_eq_true, decide_eq_true_eq]
        exact ⟨⟨⟨by omega, hm.1.1.2⟩, hm.1.2⟩, hm.2⟩

/-- A write gives the written byte at its index and leaves every other byte (R12). -/
theorem Memory.read_write {m : Memory} (h : m.wf = true) (x v y : Byte) :
    (m.write x v).read y = if y = x then v else m.read y := by
  simp only [Memory.read, Memory.write, Memory.lookup_put _ _ _ m 0 h]
  by_cases hxy : y = x
  · simp [hxy]
  · simp [hxy, BitVec.toNat_inj]

/-- A write keeps the canonical form. -/
theorem Memory.wf_write {m : Memory} (h : m.wf = true) (x v : Byte) : (m.write x v).wf = true :=
  Memory.wfFrom_put _ _ x.isLt m 0 (Nat.zero_le _) h

/-- A swap keeps the canonical form. -/
theorem Memory.wf_swap {m : Memory} (h : m.wf = true) (p q : Byte) : (m.swap p q).wf = true :=
  Memory.wf_write (Memory.wf_write h _ _) _ _

/-- A swap exchanges the two bytes and leaves every other byte (R12). -/
theorem Memory.read_swap {m : Memory} (h : m.wf = true) (p q x : Byte) :
    (m.swap p q).read x = exchanged m.read p q x := by
  simp only [Memory.swap, Memory.read_write (Memory.wf_write h _ _), Memory.read_write h, exchanged]
  by_cases hp : x = p <;> by_cases hq : x = q <;> simp_all

/-- The canonical initial mem reads as its own index (R42). -/
@[simp] theorem Memory.read_nil (x : Byte) : Memory.read [] x = x := by
  simp [Memory.read, Memory.lookup, Memory.resetByte]

/-- A cell's address as an index. -/
theorem Memory.lookup_eq_of_read_eq {m m' : Memory} (h : ∀ x : Byte, m.read x = m'.read x) {addr : Nat}
    (ha : addr < 256) : Memory.lookup addr m = Memory.lookup addr m' := by
  have := h (BitVec.ofNat 8 addr)
  simpa [Memory.read, Nat.mod_eq_of_lt ha] using this

/-- Canonical memories that read alike at every listed address are the same list. -/
theorem Memory.eq_of_lookup_eq :
    ∀ (m m' : Memory) (low : Nat), Memory.wfFrom low m = true → Memory.wfFrom low m' = true →
      (∀ addr, addr < 256 → Memory.lookup addr m = Memory.lookup addr m') → m = m'
  | [], [], _, _, _, _ => rfl
  | [], c :: rest, _, _, hm', h => by
    simp only [Memory.wfFrom, Bool.and_eq_true, decide_eq_true_eq, bne_iff_ne] at hm'
    have := h c.1 hm'.1.1.2
    rw [Memory.lookup, Memory.lookup, if_pos rfl] at this
    exact absurd this.symm hm'.1.2
  | c :: rest, [], _, hm, _, h => by
    simp only [Memory.wfFrom, Bool.and_eq_true, decide_eq_true_eq, bne_iff_ne] at hm
    have := h c.1 hm.1.1.2
    rw [Memory.lookup, Memory.lookup, if_pos rfl] at this
    exact absurd this hm.1.2
  | c :: rest, c' :: rest', low, hm, hm', h => by
    simp only [Memory.wfFrom, Bool.and_eq_true, decide_eq_true_eq, bne_iff_ne] at hm hm'
    have head : c.1 = c'.1 := by
      by_contra hne
      by_cases hlt : c.1 < c'.1
      · have := h c.1 hm.1.1.2
        rw [Memory.lookup, Memory.lookup, if_pos rfl, if_neg (by omega),
          Memory.lookup_below (by omega) rest' hm'.2] at this
        exact hm.1.2 this
      · have := h c'.1 hm'.1.1.2
        rw [Memory.lookup, Memory.lookup, if_pos rfl, if_neg (by omega),
          Memory.lookup_below (by omega) rest hm.2] at this
        exact hm'.1.2 this.symm
    have value : c.2 = c'.2 := by
      have := h c.1 hm.1.1.2
      rwa [Memory.lookup, Memory.lookup, if_pos rfl, if_pos head.symm] at this
    have tail : rest = rest' := by
      refine Memory.eq_of_lookup_eq rest rest' (c.1 + 1) hm.2 (head ▸ hm'.2) fun addr ha => ?_
      by_cases hlt : addr < c.1 + 1
      · rw [Memory.lookup_below hlt rest hm.2, Memory.lookup_below hlt rest' (head ▸ hm'.2)]
      · have := h addr ha
        rwa [Memory.lookup, Memory.lookup, if_neg (by omega), if_neg (by omega)] at this
    rw [tail, show c = c' from Prod.ext head value]

/-- Canonical memories that read alike are equal data. -/
theorem Memory.ext_read {m m' : Memory} (h : m.wf = true) (h' : m'.wf = true)
    (hr : ∀ x : Byte, m.read x = m'.read x) : m = m' :=
  Memory.eq_of_lookup_eq m m' 0 h h' fun _ ha => Memory.lookup_eq_of_read_eq hr ha

/-- A swap of an index with itself changes nothing (R12). -/
theorem Memory.swap_self {m : Memory} (h : m.wf = true) (p : Byte) : m.swap p p = m :=
  Memory.ext_read (Memory.wf_swap h p p) h fun x => by
    simp only [Memory.read_swap h, exchanged]
    by_cases hx : x = p <;> simp [hx]

/-- The reset memory is in canonical form. -/
theorem Memory.wf_reset : State.reset.engine.mem.wf = true := rfl

end Sys2Proof.Machine
end

