-- ==== Sys2Proof/Laws/Mixing.lean ====
section
/-! SUPPORT. What each mixing primitive writes and what it leaves (the "State written" lines of R100 to R106). -/

namespace Sys2Proof.Machine

/-- Writing back the z an engine has changes nothing. Stated for any engine: with `shuffle e` in its place the kernel
would unroll the shuffle to see it. -/
theorem Engine.with_z {r : Engine} {z : Byte} (h : r.z = z) : ({ r with z := z } : Engine) = r := by rw [← h]

variable (e : Engine)

@[simp] theorem updateRound_i : (updateRound e).i = e.i + e.w := rfl
@[simp] theorem updateRound_z : (updateRound e).z = e.z := rfl
@[simp] theorem updateRound_a : (updateRound e).a = e.a := rfl
@[simp] theorem updateRound_w : (updateRound e).w = e.w := rfl
theorem updateRound_mem : (updateRound e).mem = e.mem.swap (updateRound e).i (updateRound e).j := rfl

@[simp] theorem update_zero : update 0 e = e := rfl
theorem update_succ (n : Nat) : update (n + 1) e = updateRound (update n e) := rfl
theorem update_one : update 1 e = updateRound e := rfl

theorem update_add (m n : Nat) : update (m + n) e = update n (update m e) := by
  induction n with
  | zero => rfl
  | succ n ih => rw [← Nat.add_assoc, update_succ, update_succ, ih]

@[simp] theorem update_z (n : Nat) : (update n e).z = e.z := by
  induction n with
  | zero => rfl
  | succ n ih => rw [update_succ, updateRound_z, ih]
@[simp] theorem update_a (n : Nat) : (update n e).a = e.a := by
  induction n with
  | zero => rfl
  | succ n ih => rw [update_succ, updateRound_a, ih]
@[simp] theorem update_w (n : Nat) : (update n e).w = e.w := by
  induction n with
  | zero => rfl
  | succ n ih => rw [update_succ, updateRound_w, ih]

@[simp] theorem whip_mem (n : Nat) : (whip n e).mem = (update n e).mem := rfl
@[simp] theorem whip_i (n : Nat) : (whip n e).i = (update n e).i := rfl
@[simp] theorem whip_j (n : Nat) : (whip n e).j = (update n e).j := rfl
@[simp] theorem whip_k (n : Nat) : (whip n e).k = (update n e).k := rfl
@[simp] theorem whip_z (n : Nat) : (whip n e).z = e.z := update_z e n
@[simp] theorem whip_a (n : Nat) : (whip n e).a = e.a := update_a e n
@[simp] theorem whip_w (n : Nat) : (whip n e).w = e.w + 2 := by
  show (update n e).w + 2 = e.w + 2
  rw [update_w]

section
variable (p : Nat)
@[simp] theorem crushOf_mem : (crushOf p e).mem = crushPairs p e.mem := rfl
@[simp] theorem crushOf_i : (crushOf p e).i = e.i := rfl
@[simp] theorem crushOf_j : (crushOf p e).j = e.j := rfl
@[simp] theorem crushOf_k : (crushOf p e).k = e.k := rfl
@[simp] theorem crushOf_z : (crushOf p e).z = e.z := rfl
@[simp] theorem crushOf_a : (crushOf p e).a = e.a := rfl
@[simp] theorem crushOf_w : (crushOf p e).w = e.w := rfl
end

theorem crush_eq : crush e = crushOf Config.pairCount e := rfl

/-- One crush pair is a swap or nothing (R102). -/
theorem crushPair_cases (m : Memory) (v : Byte) : crushPair m v = m.swap v (255 - v) ∨ crushPair m v = m := by
  unfold crushPair
  split
  · exact .inl rfl
  · exact .inr rfl

theorem wf_crushPair {m : Memory} (h : m.wf = true) (v : Byte) : (crushPair m v).wf = true := by
  obtain hc | hc := crushPair_cases m v
  · rw [hc]; exact Memory.wf_swap h _ _
  · rwa [hc]

theorem wf_crushPairs {m : Memory} (h : m.wf = true) (n : Nat) : (crushPairs n m).wf = true := by
  induction n with
  | zero => exact h
  | succ n ih => exact wf_crushPair ih _

theorem wf_update {e : Engine} (h : e.mem.wf = true) (n : Nat) : (update n e).mem.wf = true := by
  induction n with
  | zero => exact h
  | succ n ih => exact Memory.wf_swap ih _ _

section
variable (n p : Nat)

/-- shuffle in one line: three whips with two crushes between them, then a is 0 (R103). -/
theorem shuffleOf_eq :
    shuffleOf n p e = { whip n (crushOf p (whip n (crushOf p (whip n e)))) with a := 0 } := rfl

@[simp] theorem shuffleOf_a : (shuffleOf n p e).a = 0 := rfl
@[simp] theorem shuffleOf_z : (shuffleOf n p e).z = e.z := by
  simp only [shuffleOf_eq, whip_z, crushOf_z]
theorem shuffleOf_w : (shuffleOf n p e).w = e.w + 2 + 2 + 2 := by
  simp only [shuffleOf_eq, whip_w, crushOf_w]

end

theorem shuffle_eq : shuffle e = shuffleOf Config.whipRounds Config.pairCount e := rfl

@[simp] theorem shuffle_a : (shuffle e).a = 0 := shuffleOf_a e _ _
@[simp] theorem shuffle_z : (shuffle e).z = e.z := shuffleOf_z e _ _

theorem wf_whip {e : Engine} (h : e.mem.wf = true) (n : Nat) : (whip n e).mem.wf = true := wf_update h n

theorem wf_crushOf {e : Engine} (h : e.mem.wf = true) (p : Nat) : (crushOf p e).mem.wf = true := wf_crushPairs h p

theorem wf_shuffleOf {e : Engine} (h : e.mem.wf = true) (n p : Nat) : (shuffleOf n p e).mem.wf = true :=
  wf_whip (wf_crushOf (wf_whip (wf_crushOf (wf_whip h n) p) n) p) n

theorem wf_shuffle {e : Engine} (h : e.mem.wf = true) : (shuffle e).mem.wf = true := wf_shuffleOf h _ _

/-- After the room check a ≤ 127 (R104, R131). -/
theorem makeRoom_a_le : (makeRoom e).a.val ≤ 127 := by
  unfold makeRoom
  split
  · simp
  · have := e.a.isLt; omega

theorem makeRoom_of_lt {e : Engine} (h : e.a.val < 128) : makeRoom e = e := by
  rw [makeRoom, if_neg (by omega)]

theorem makeRoom_of_full {e : Engine} (h : e.a.val = 128) : makeRoom e = shuffle e := by
  rw [makeRoom, if_pos h]

theorem wf_makeRoom {e : Engine} (h : e.mem.wf = true) : (makeRoom e).mem.wf = true := by
  unfold makeRoom
  split
  · exact wf_shuffle h
  · exact h

@[simp] theorem makeRoom_z : (makeRoom e).z = e.z := by
  unfold makeRoom
  split
  · exact shuffle_z e
  · rfl

/-- Counting a nibble adds one while there is room (R104). -/
theorem countNibble_val {a : Fin 129} (h : a.val ≤ 127) : (countNibble a).val = a.val + 1 :=
  Nat.mod_eq_of_lt (by omega)

theorem wf_absorbNibble {e : Engine} (h : e.mem.wf = true) (x : Nibble) : (absorbNibble x e).mem.wf = true :=
  Memory.wf_swap (wf_makeRoom h) _ _

@[simp] theorem absorbNibble_z (x : Nibble) : (absorbNibble x e).z = e.z := makeRoom_z e

theorem absorbNibble_of_lt {e : Engine} (x : Nibble) (h : e.a.val < 128) : absorbNibble x e =
    { e with mem := e.mem.swap (absorbIndex e.a) (nibbleIndex x), a := countNibble e.a } := by
  rw [absorbNibble, makeRoom_of_lt h]

theorem wf_absorbByte {e : Engine} (h : e.mem.wf = true) (b : Byte) : (absorbByte b e).mem.wf = true :=
  wf_absorbNibble (wf_absorbNibble h _) _

theorem wf_absorbBytes {e : Engine} (h : e.mem.wf = true) (bs : List Byte) :
    (absorbBytes bs e).mem.wf = true := by
  induction bs generalizing e with
  | nil => exact h
  | cons b bs ih => exact ih (wf_absorbByte h b)

@[simp] theorem dripOne_mem : (dripOne e).mem = (updateRound e).mem := rfl
@[simp] theorem dripOne_i : (dripOne e).i = (updateRound e).i := rfl
@[simp] theorem dripOne_j : (dripOne e).j = (updateRound e).j := rfl
@[simp] theorem dripOne_k : (dripOne e).k = (updateRound e).k := rfl
@[simp] theorem dripOne_a : (dripOne e).a = e.a := rfl
@[simp] theorem dripOne_w : (dripOne e).w = e.w := rfl

theorem wf_dripOne {e : Engine} (h : e.mem.wf = true) : (dripOne e).mem.wf = true := Memory.wf_swap h _ _

end Sys2Proof.Machine
end

