-- ==== Sys2Proof/Laws/State.lean ====
section
/-! SUPPORT. One lemma per field per update, true by rfl, for the operations that write the state. -/

namespace Sys2Proof.Machine

variable (s t : State) (b : Byte) (w : CmdWord) (n : Nat)

@[simp] theorem emit_engine : (emit b s).engine = s.engine := rfl
@[simp] theorem emit_err : (emit b s).err = s.err := rfl
@[simp] theorem emit_errCode : (emit b s).errCode = s.errCode := rfl
@[simp] theorem emit_outq : (emit b s).outq = s.outq ++ [b] := rfl
@[simp] theorem emit_host : (emit b s).host = s.host := rfl
@[simp] theorem emit_offered : (emit b s).offered = s.offered := rfl
@[simp] theorem emit_taken : (emit b s).taken = s.taken := rfl
@[simp] theorem emit_statusReads : (emit b s).statusReads = s.statusReads := rfl
@[simp] theorem emit_statusDraws : (emit b s).statusDraws = s.statusDraws := rfl

@[simp] theorem clearError_engine : (clearError s).engine = s.engine := rfl
@[simp] theorem clearError_err : (clearError s).err = false := rfl
@[simp] theorem clearError_errCode : (clearError s).errCode = none := rfl
@[simp] theorem clearError_outq : (clearError s).outq = s.outq := rfl
@[simp] theorem clearError_host : (clearError s).host = s.host := rfl
@[simp] theorem clearError_offered : (clearError s).offered = s.offered := rfl
@[simp] theorem clearError_taken : (clearError s).taken = s.taken := rfl
@[simp] theorem clearError_statusReads : (clearError s).statusReads = s.statusReads := rfl
@[simp] theorem clearError_statusDraws : (clearError s).statusDraws = s.statusDraws := rfl

@[simp] theorem hardReset_engine : (hardReset s).engine = Engine.canonical := rfl
@[simp] theorem hardReset_err : (hardReset s).err = false := rfl
@[simp] theorem hardReset_errCode : (hardReset s).errCode = none := rfl
@[simp] theorem hardReset_outq : (hardReset s).outq = [] := rfl
@[simp] theorem hardReset_host : (hardReset s).host = s.host := rfl
@[simp] theorem hardReset_offered : (hardReset s).offered = none := rfl
@[simp] theorem hardReset_taken : (hardReset s).taken = s.taken := rfl
@[simp] theorem hardReset_statusReads : (hardReset s).statusReads = s.statusReads := rfl
@[simp] theorem hardReset_statusDraws : (hardReset s).statusDraws = s.statusDraws := rfl

@[simp] theorem sampleStatus_engine : (sampleStatus s).engine = s.engine := rfl
@[simp] theorem sampleStatus_err : (sampleStatus s).err = s.err := rfl
@[simp] theorem sampleStatus_errCode : (sampleStatus s).errCode = s.errCode := rfl
@[simp] theorem sampleStatus_outq : (sampleStatus s).outq = s.outq := rfl
@[simp] theorem sampleStatus_host : (sampleStatus s).host = s.host := rfl
@[simp] theorem sampleStatus_offered : (sampleStatus s).offered = s.offered := rfl
@[simp] theorem sampleStatus_taken : (sampleStatus s).taken = s.taken := rfl
@[simp] theorem sampleStatus_statusReads :
    (sampleStatus s).statusReads = s.statusReads ++ [statusByte s] := rfl
@[simp] theorem sampleStatus_statusDraws : (sampleStatus s).statusDraws = s.statusDraws + 1 := rfl

section
variable (d : HostDrive) (rest : List HostDrive)

@[simp] theorem beginEdge_engine : (beginEdge d rest s).engine = s.engine := by
  cases h : d.readStatus <;> simp [beginEdge, h]
@[simp] theorem beginEdge_err : (beginEdge d rest s).err = s.err := by
  cases h : d.readStatus <;> simp [beginEdge, h]
@[simp] theorem beginEdge_errCode : (beginEdge d rest s).errCode = s.errCode := by
  cases h : d.readStatus <;> simp [beginEdge, h]
@[simp] theorem beginEdge_outq : (beginEdge d rest s).outq = s.outq := by
  cases h : d.readStatus <;> simp [beginEdge, h]
@[simp] theorem beginEdge_host : (beginEdge d rest s).host = rest := by
  cases h : d.readStatus <;> simp [beginEdge, h]
@[simp] theorem beginEdge_offered : (beginEdge d rest s).offered = s.offered := by
  cases h : d.readStatus <;> simp [beginEdge, h]
@[simp] theorem beginEdge_taken : (beginEdge d rest s).taken = s.taken := by
  cases h : d.readStatus <;> simp [beginEdge, h]
@[simp] theorem beginEdge_statusReads : (beginEdge d rest s).statusReads =
    if d.readStatus then s.statusReads ++ [statusByte s] else s.statusReads := by
  cases h : d.readStatus <;> simp [beginEdge, h]
@[simp] theorem beginEdge_statusDraws : (beginEdge d rest s).statusDraws =
    if d.readStatus then s.statusDraws + 1 else s.statusDraws := by
  cases h : d.readStatus <;> simp [beginEdge, h]

end

@[simp] theorem unlessHeld_held (h : s.err = true) : unlessHeld s t = s := by simp [unlessHeld, h]
@[simp] theorem unlessHeld_clear (h : s.err = false) : unlessHeld s t = t := by simp [unlessHeld, h]

@[simp] theorem raiseIllegal_held (c : IllegalCode) (h : s.err = true) : raiseIllegal c s = s := by
  simp [raiseIllegal, h]
@[simp] theorem raiseIllegal_clear (c : IllegalCode) (h : s.err = false) :
    raiseIllegal c s = { s with err := true, errCode := some c } := by
  simp [raiseIllegal, h]

@[simp] theorem driveCommand_engine : (driveCommand w s).engine = s.engine := rfl
@[simp] theorem driveCommand_err : (driveCommand w s).err = s.err := rfl
@[simp] theorem driveCommand_errCode : (driveCommand w s).errCode = s.errCode := rfl
@[simp] theorem driveCommand_outq : (driveCommand w s).outq = [] := rfl
@[simp] theorem driveCommand_offered : (driveCommand w s).offered = none := rfl
@[simp] theorem driveCommand_taken : (driveCommand w s).taken = s.taken ++ s.outq := rfl
@[simp] theorem driveCommand_statusReads : (driveCommand w s).statusReads = s.statusReads := rfl
@[simp] theorem driveCommand_statusDraws : (driveCommand w s).statusDraws = s.statusDraws := rfl

end Sys2Proof.Machine
end

