-- ==== Sys2Proof/Laws/Controller.lean ====
section
/-! SUPPORT. What the output handshake, a command and one step can do, said once. -/

namespace Sys2Proof.Machine

/-- The output handshake does nothing, or moves the head of OUTQ to the host (R72). -/
theorem transferOutput_cases (r : Bool) (s : State) :
    transferOutput r s = s ∨
      ∃ b rest, r = true ∧ s.outq = b :: rest ∧
        transferOutput r s = { s with outq := rest, taken := s.taken ++ [b] } := by
  unfold transferOutput
  split
  · exact .inr ⟨_, _, rfl, ‹_›, rfl⟩
  · exact .inl rfl

@[simp] theorem transferOutput_engine (r : Bool) (s : State) : (transferOutput r s).engine = s.engine := by
  obtain h | ⟨b, rest, -, -, h⟩ := transferOutput_cases r s <;> rw [h]
@[simp] theorem transferOutput_err (r : Bool) (s : State) : (transferOutput r s).err = s.err := by
  obtain h | ⟨b, rest, -, -, h⟩ := transferOutput_cases r s <;> rw [h]
@[simp] theorem transferOutput_errCode (r : Bool) (s : State) : (transferOutput r s).errCode = s.errCode := by
  obtain h | ⟨b, rest, -, -, h⟩ := transferOutput_cases r s <;> rw [h]
@[simp] theorem transferOutput_host (r : Bool) (s : State) : (transferOutput r s).host = s.host := by
  obtain h | ⟨b, rest, -, -, h⟩ := transferOutput_cases r s <;> rw [h]
@[simp] theorem transferOutput_offered (r : Bool) (s : State) : (transferOutput r s).offered = s.offered := by
  obtain h | ⟨b, rest, -, -, h⟩ := transferOutput_cases r s <;> rw [h]
@[simp] theorem transferOutput_statusReads (r : Bool) (s : State) :
    (transferOutput r s).statusReads = s.statusReads := by
  obtain h | ⟨b, rest, -, -, h⟩ := transferOutput_cases r s <;> rw [h]
@[simp] theorem transferOutput_statusDraws (r : Bool) (s : State) :
    (transferOutput r s).statusDraws = s.statusDraws := by
  obtain h | ⟨b, rest, -, -, h⟩ := transferOutput_cases r s <;> rw [h]

/-- The output handshake moves bytes from OUTQ to the host and loses none (R72). -/
theorem transferOutput_bytes (r : Bool) (s : State) :
    (transferOutput r s).taken ++ (transferOutput r s).outq = s.taken ++ s.outq := by
  obtain h | ⟨b, rest, -, hq, h⟩ := transferOutput_cases r s
  · rw [h]
  · rw [h, hq]; simp

/-- What a drip leaves of the state outside the engine and OUTQ. -/
theorem drips_frame (n : Nat) (s : State) :
    (drips n s).err = s.err ∧ (drips n s).errCode = s.errCode ∧ (drips n s).host = s.host ∧
      (drips n s).offered = s.offered ∧ (drips n s).taken = s.taken ∧
      (drips n s).statusReads = s.statusReads ∧ (drips n s).statusDraws = s.statusDraws := by
  induction n generalizing s with
  | zero => exact ⟨rfl, rfl, rfl, rfl, rfl, rfl, rfl⟩
  | succ n ih => exact ih (drip s)

theorem drips_add (m n : Nat) (s : State) : drips (m + n) s = drips n (drips m s) := by
  induction m generalizing s with
  | zero => simp [drips]
  | succ m ih => rw [Nat.succ_add]; exact ih (drip s)

/-- Everything n drips do: n drip_one on the engine, and the z of each at the tail of OUTQ (R150). -/
theorem drips_eq (n : Nat) (s : State) :
    drips n s = { s with
      engine := dripOne^[n] s.engine
      outq := s.outq ++ (List.range n).map (fun m => (dripOne^[m + 1] s.engine).z) } := by
  induction n generalizing s with
  | zero => simp [drips]
  | succ n ih =>
    rw [drips, ih (drip s)]
    simp [drip, emit, List.range_succ_eq_map, Function.comp_def]

/-- The phase check with absorbed input pending, and without (R27, R150). -/
theorem finishAbsorbing_pos {e : Engine} (h : 0 < e.a.val) : finishAbsorbing e = shuffle e := by
  rw [finishAbsorbing, if_pos]
  simpa [absorbing] using h
theorem finishAbsorbing_zero {e : Engine} (h : e.a.val = 0) : finishAbsorbing e = e := by
  rw [finishAbsorbing, if_neg]
  simp [absorbing, h]

@[simp] theorem execReset_eq (s : State) :
    exec .reset s = .next (clearError { s with engine := Engine.canonical }) := rfl
@[simp] theorem execAbsorb_eq (b : Byte) (s : State) :
    exec (.absorb b) s = .next (unlessHeld s { s with engine := absorbByte b s.engine }) := rfl
@[simp] theorem execAbsorbStop_eq (s : State) :
    exec .absorbStop s = .next (unlessHeld s { s with engine := absorbStop s.engine }) := rfl
@[simp] theorem execAbsorbNumber_eq (n : Nat) (s : State) :
    exec (.absorbNumber n) s = .next (unlessHeld s { s with engine := absorbBytes (numberBytes n) s.engine }) := rfl
@[simp] theorem execSqueeze_eq (n : Nat) (s : State) :
    exec (.squeeze n) s = .next (unlessHeld s (drips n { s with engine := finishAbsorbing s.engine })) := rfl
@[simp] theorem execSqueezeXor_eq (d : Byte) (s : State) :
    exec (.squeezeXor d) s = .next (unlessHeld s (dripXor d { s with engine := finishAbsorbing s.engine })) := rfl

/-- No command ends in a fault or a refusal (R208). -/
theorem exec_next (i : Instr) (s : State) : ∃ t, exec i s = .next t := by
  cases i <;> exact ⟨_, rfl⟩

/-- Everything a command can do while ERR = 1: nothing, or be the RESET that ends the hold (R204). -/
theorem exec_held {i : Instr} {s t : State} (h : exec i s = .next t) (he : s.err = true) :
    t = s ∨ i = .reset ∧ t = clearError { s with engine := Engine.canonical } := by
  cases i <;> simp [unlessHeld, he] at h <;> simp [h, he]

/-- What a command leaves outside the engine, the error and OUTQ: everything. -/
theorem exec_frame {i : Instr} {s t : State} (h : exec i s = .next t) :
    t.host = s.host ∧ t.offered = s.offered ∧ t.taken = s.taken ∧ t.statusReads = s.statusReads ∧
      t.statusDraws = s.statusDraws := by
  cases he : s.err
  · cases i <;> simp [he] at h <;> subst h <;> simp [dripXor, drips_frame]
  · obtain rfl | ⟨-, rfl⟩ := exec_held h he <;> simp

/-- Taking the exception changes nothing but ERR and ERRCODE (R201). -/
theorem raiseIllegal_frame (c : IllegalCode) (s : State) :
    raiseIllegal c s =
      { s with err := true, errCode := if s.err then s.errCode else some c } := by
  cases h : s.err <;> simp [raiseIllegal, h]
  cases s; simp_all

/-- Everything accepting a word can do: perform a legal command, or take the exception (R78, R201). -/
theorem accept_cases {w : CmdWord} {s t : State} (h : accept w s = .next t) :
    (∃ i, decode w = .legal i ∧ exec i s = .next t) ∨
      (∃ c, decode w = .illegal c ∧ t = raiseIllegal c s) := by
  unfold accept at h
  split at h
  · exact .inl ⟨_, ‹_›, h⟩
  · cases h; exact .inr ⟨_, ‹_›, rfl⟩

/-- Everything a step that answers next can do: be idle, take the hardware reset, transfer output with no command on
the port, transfer a command, or hold a command while the engine is busy. -/
theorem step_cases {s t : State} (h : step s = .next t) :
    (s.host = [] ∧ t = s) ∨
      ∃ d rest, s.host = d :: rest ∧
        ((d.rstN = false ∧ t = hardReset (beginEdge d rest s)) ∨
          (d.rstN = true ∧ offerBroken d.cmd s = false ∧
            ((d.cmd = none ∧ t = transferOutput d.outReady (beginEdge d rest s)) ∨
              (∃ w, d.cmd = some w ∧ s.outq = [] ∧
                accept w { beginEdge d rest s with offered := none } = .next t) ∨
              (∃ w, d.cmd = some w ∧ s.outq ≠ [] ∧
                t = transferOutput d.outReady { beginEdge d rest s with offered := some w })))) := by
  have hb : ∀ d rest, offerBroken d.cmd (beginEdge d rest s) = offerBroken d.cmd s := by
    intro d rest; simp [offerBroken]
  unfold step stepEdge at h
  split at h
  · cases h; exact .inl ⟨‹_›, rfl⟩
  · rename_i d rest hh
    refine .inr ⟨d, rest, hh, ?_⟩
    unfold edge at h
    split at h
    · cases h; exact .inl ⟨‹_›, rfl⟩
    · rename_i hr
      have hr : d.rstN = true := by simpa using hr
      rw [hb] at h
      split at h
      · cases h
      · rename_i ho
        refine .inr ⟨hr, by simpa using ho, ?_⟩
        unfold handshakes at h
        split at h
        · cases h; exact .inl ⟨‹_›, rfl⟩
        · rename_i w hw
          split at h
          · rename_i hc
            refine .inr (.inl ⟨w, hw, ?_, h⟩)
            simpa [cmdReady, busy, hr] using hc
          · rename_i hc
            cases h
            refine .inr (.inr ⟨w, hw, ?_, rfl⟩)
            simpa [cmdReady, busy, hr] using hc

end Sys2Proof.Machine
end

