-- ==== Sys2Proof/Laws/Counts.lean ====
section
/-! SUPPORT. What the counted primitives do: the engine is the primitive's own, and the tally grows by a number that the
data do not change. -/

namespace Sys2Proof.Machine

/-- A tally with more rounds and more compares. -/
def Work.plus (w : Work) (rounds compares : Nat) : Work :=
  { w with rounds := w.rounds + rounds, compares := w.compares + compares }

@[simp] theorem Work.plus_zero (w : Work) : w.plus 0 0 = w := rfl
@[simp] theorem Work.plus_plus (w : Work) (r c r' c' : Nat) :
    (w.plus r c).plus r' c' = w.plus (r + r') (c + c') := by
  simp [Work.plus, Nat.add_assoc]

theorem countedUpdate_eq (n : Nat) (c : Counted) :
    countedUpdate n c = { engine := update n c.engine, work := c.work.plus n 0 } := by
  induction n with
  | zero => rfl
  | succ n ih => rw [countedUpdate, ih]; rfl

theorem countedWhip_eq (n : Nat) (c : Counted) :
    countedWhip n c = { engine := whip n c.engine, work := c.work.plus n 0 } := by
  rw [countedWhip, countedUpdate_eq]; rfl

theorem countedCrushOf_eq (n : Nat) (c : Counted) :
    countedCrushOf n c = { engine := crushOf n c.engine, work := c.work.plus 0 n } := by
  induction n with
  | zero => rfl
  | succ n ih => rw [countedCrushOf, ih]; rfl

/-- A shuffle performs three times the rounds of a whip and twice the pairs of a crush. -/
theorem countedShuffleOf_eq (n p : Nat) (c : Counted) :
    countedShuffleOf n p c =
      { engine := shuffleOf n p c.engine, work := c.work.plus (n + n + n) (p + p) } := by
  simp only [countedShuffleOf, countedWhip_eq, countedCrushOf_eq, Work.plus_plus, shuffleOf, Nat.zero_add, Nat.add_zero]

theorem countedShuffle_eq (c : Counted) :
    countedShuffle c =
      { engine := shuffle c.engine
        work := c.work.plus (Config.whipRounds + Config.whipRounds + Config.whipRounds)
          (Config.pairCount + Config.pairCount) } := countedShuffleOf_eq _ _ c

theorem countedDrip_engine (c : Counted) : (countedDrip c).engine = dripOne c.engine := rfl

theorem countedRoom_of_lt {c : Counted} (h : c.engine.a.val < 128) : countedRoom c = c := by
  rw [countedRoom, if_neg (by omega)]

theorem countedRoom_engine (c : Counted) : (countedRoom c).engine = makeRoom c.engine := by
  unfold countedRoom makeRoom
  split
  · rw [countedShuffle_eq]
  · rfl

theorem countedNibble_engine (x : Nibble) (c : Counted) : (countedNibble x c).engine = absorbNibble x c.engine := by
  simp only [countedNibble, absorbNibble, countedRoom_engine]

theorem countedStop_engine (c : Counted) : (countedStop c).engine = absorbStop c.engine := by
  simp only [countedStop, absorbStop, countedRoom_engine]

theorem countedBytes_engine (bs : List Byte) (c : Counted) :
    (countedBytes bs c).engine = absorbBytes bs c.engine := by
  induction bs generalizing c with
  | nil => rfl
  | cons b bs ih => rw [countedBytes, ih, countedNibble_engine, countedNibble_engine]; rfl

theorem countedFinish_engine (c : Counted) : (countedFinish c).engine = finishAbsorbing c.engine := by
  unfold countedFinish finishAbsorbing
  split
  · rw [countedShuffle_eq]
  · rfl

theorem countedNibble_work (x : Nibble) (c : Counted) : (countedNibble x c).work = (countedRoom c).work := rfl

theorem countedStop_work (c : Counted) : (countedStop c).work = (countedRoom c).work := rfl

end Sys2Proof.Machine
end

