-- ==== Sys2Proof/Laws/Words.lean ====
section
/-! SUPPORT. The command word and its three fields (R75): reading the fields of a word laid out from them, and laying a
word out from its fields. -/

namespace Sys2Proof.Laws

/-- Three fields laid side by side are read back by their places. -/
theorem fields_of_append (x : BitVec 8) (y : BitVec 24) (z : BitVec 32) :
    (x ++ y ++ z).extractLsb' 56 8 = x ∧ (x ++ y ++ z).extractLsb' 32 24 = y ∧
      (x ++ y ++ z).extractLsb' 0 32 = z := by
  refine ⟨?_, ?_, ?_⟩
  · ext i hi
    rw [BitVec.getElem_extractLsb', BitVec.getLsbD_append, if_neg (by omega), BitVec.getLsbD_append,
      if_neg (by omega), show 56 + i - 32 - 24 = i by omega, BitVec.getLsbD_eq_getElem]
  · ext i hi
    rw [BitVec.getElem_extractLsb', BitVec.getLsbD_append, if_neg (by omega), BitVec.getLsbD_append,
      if_pos (by omega), show 32 + i - 32 = i by omega, BitVec.getLsbD_eq_getElem]
  · ext i hi
    rw [BitVec.getElem_extractLsb', BitVec.getLsbD_append, if_pos (by omega), Nat.zero_add, BitVec.getLsbD_eq_getElem]

/-- The fields of a word in format C (R75). -/
theorem formatC_fields (op : Opcode) (arg : Arg) :
    opField (formatC op arg) = op.value ∧ rsvField (formatC op arg) = 0#24 ∧ argField (formatC op arg) = arg :=
  fields_of_append op.value 0#24 arg

/-- A word is its three fields side by side (R75). -/
theorem word_of_fields (w : CmdWord) : (opField w ++ rsvField w ++ argField w : CmdWord) = w := by
  have h : ∀ i, i < 64 → (opField w ++ rsvField w ++ argField w).getLsbD i = w.getLsbD i := by
    intro i hi
    rw [BitVec.getLsbD_append, BitVec.getLsbD_append, opField, rsvField, argField]
    split
    · rw [BitVec.getLsbD_extractLsb', decide_eq_true (by omega), Bool.true_and, Nat.zero_add]
    · split
      · rw [BitVec.getLsbD_extractLsb', decide_eq_true (by omega), Bool.true_and]; congr 1; omega
      · rw [BitVec.getLsbD_extractLsb', decide_eq_true (by omega), Bool.true_and]; congr 1; omega
  exact BitVec.eq_of_getLsbD_eq fun i hi => h i hi

/-- A u8 operand is the low byte of its argument field, and nothing stands above it (R77). -/
theorem byte_argument (b : Byte) : argByte (b.setWidth 32) = b ∧ argAboveByte (b.setWidth 32) = 0#24 := by
  revert b
  decide

end Sys2Proof.Laws
end

