-- ==== Sys2Proof/Laws/PerInstr.lean ====
section
/-! SUPPORT. What is shown of each command as syntax, one lemma per constructor. -/

namespace Sys2Proof.Laws

namespace Encoding

/-- The three fields of a command's word: its opcode, zero reserved bits, its argument (R75, R76, R77). -/
def Statement (i : Instr) : Prop :=
  opField (encode i) = i.opcode.value ∧ rsvField (encode i) = 0#24 ∧ argField (encode i) = i.argument

theorem reset : Statement .reset := formatC_fields _ _
theorem absorb (b : Byte) : Statement (.absorb b) := formatC_fields _ _
theorem absorbStop : Statement .absorbStop := formatC_fields _ _
theorem absorbNumber (n : Nat) : Statement (.absorbNumber n) := formatC_fields _ _
theorem squeeze (n : Nat) : Statement (.squeeze n) := formatC_fields _ _
theorem squeezeXor (d : Byte) : Statement (.squeezeXor d) := formatC_fields _ _

end Encoding

end Sys2Proof.Laws
end

