-- ==== Sys2Proof/Tests/Slice0.lean ====
section
/-! SUPPORT. Tests: expected results are the spec's own vectors (V-*, 95_test_vectors.md) or words written out from the
encoding of R75 to R77. Then one witness for each statement that has hypotheses. -/

namespace Sys2Proof.Tests

open Sys2Proof.Machine

/-! Helpers -/

/-- The next state of an outcome, if it is one. -/
def nextOf : Host.Outcome State Fault Refusal → Option State
  | .next t => some t
  | .fault _ => none
  | .refused _ => none

/-- The engine after one command from the reset state. -/
def engineAfter (i : Instr) : Option Engine := (nextOf (exec i State.reset)).map State.engine

/-- The bytes one command emits from the reset state. -/
def bytesAfter (i : Instr) : Option (List Byte) := (nextOf (exec i State.reset)).map State.outq

/-- The state one step after a word is driven on the command port. -/
def stepWord (w : CmdWord) (s : State) : Option State := nextOf (step (driveCommand w s))

/-- The canonical engine with another absorb count. -/
def engineAt (a : Fin 129) : Engine := { Engine.canonical with a := a }

/-- The reset state with another absorb count. -/
def stateAt (a : Fin 129) : State := { State.reset with engine := engineAt a }

/-- The state after V-E2: held with ILLEGAL_OPCODE. -/
def heldState : State := { State.reset with err := true, errCode := some .illegalOpcode }

/-- An edge that drives nothing. -/
def quiet : HostDrive := { rstN := true, cmd := none, outReady := false, readStatus := false }

/-- An edge that drives a word. -/
def send (w : CmdWord) : HostDrive := { quiet with cmd := some w }

/-- An edge that takes output. -/
def takeByte : HostDrive := { quiet with outReady := true }

/-- An edge that asserts the hardware reset. -/
def resetEdge : HostDrive := { quiet with rstN := false }

/-- A state with two bytes waiting and one edge to come. -/
def waiting (d : HostDrive) : State := { State.reset with outq := [0x28, 0xFB], host := [d] }

/-- The engine after absorb_nibble(5) from canonical (V-N1): mem[0] = 133, mem[133] = 0. -/
def afterN1 : Engine := { Engine.canonical with mem := [(0, 133), (133, 0)], a := 1 }

/-- mem of V-C5's start: mem[0] = 128, mem[128] = 0. -/
def memC5 : Memory := [(0, 128), (128, 0)]

/-! WellFormed -/

theorem test_wellFormed_accepts_largest_number : (Instr.absorbNumber 4294967295).wellFormed = true := by decide
theorem test_wellFormed_refuses_number_2_32 : (Instr.absorbNumber 4294967296).wellFormed = false := by decide
theorem test_wellFormed_accepts_largest_count : (Instr.squeeze 4294967295).wellFormed = true := by decide
theorem test_wellFormed_refuses_count_2_32 : (Instr.squeeze 4294967296).wellFormed = false := by decide

/-! Decode: words written out bit by bit, op (8) rsv (24) arg (32) -/

theorem test_decode_reset : decode
    0b00000001_000000000000000000000000_00000000000000000000000000000000#64 = .legal .reset := by decide
theorem test_decode_absorb : decode
    0b00000010_000000000000000000000000_00000000000000000000000001000001#64 = .legal (.absorb 0x41) := by decide
theorem test_decode_absorbStop : decode
    0b00000011_000000000000000000000000_00000000000000000000000000000000#64 = .legal .absorbStop := by decide
theorem test_decode_absorbNumber : decode
    0b00000100_000000000000000000000000_10000000000000000001001000110100#64 = .legal (.absorbNumber 0x80001234) := by
  decide
theorem test_decode_squeeze : decode
    0b00000101_000000000000000000000000_00000001000000000000000000000000#64 = .legal (.squeeze 16777216) := by decide
theorem test_decode_squeezeXor : decode
    0b00000110_000000000000000000000000_00000000000000000000000010000001#64 = .legal (.squeezeXor 0x81) := by decide
/-- V-E1, V-E5: the all-zero word; an undefined opcode before the reserved bits. -/
theorem test_decode_illegal_opcode : decode 0x0000000000000000#64 = .illegal .illegalOpcode ∧
    decode 0x07FFFFFF00000000#64 = .illegal .illegalOpcode := by decide
/-- V-E3, V-E4, V-E6: arg[8] of ABSORB, rsv bit 48 of RESET, rsv bit 32 of ABSORB_NUMBER. -/
theorem test_decode_reserved_bits : decode 0x0200000000000141#64 = .illegal .reservedBits ∧
    decode 0x0101000000000000#64 = .illegal .reservedBits ∧
    decode 0x0400000100000000#64 = .illegal .reservedBits := by decide
theorem test_decode_reserved_bits_op_edges : decode 0x0300000080000000#64 = .illegal .reservedBits ∧
    decode 0x06000000000001FF#64 = .illegal .reservedBits ∧
    decode 0x05800000FFFFFFFF#64 = .illegal .reservedBits := by decide
/-- spec/opcode_table.json: the mask and match of each row, and no two rows share a word. -/
theorem test_opcode_table_rows_are_disjoint : opcodeTable.Pairwise fun r r' => r.value &&& r'.mask ≠ r'.value := by
  decide
theorem test_decodeTableWord : decodeTableWord 64 0x0500000000000008 = some (.squeeze 8) ∧
    decodeTableWord 64 0x0700000000000000 = none := by decide

/-! Encode: the examples of R82 -/

theorem test_encode_examples : encode (.absorb 0x41) = 0x0200000000000041#64 ∧
    encode (.absorbNumber 32) = 0x0400000000000020#64 ∧ encode (.squeeze 8) = 0x0500000000000008#64 ∧
    encode (.squeezeXor 0x48) = 0x0600000000000048#64 := by decide

/-! Primitives -/

/-- V-U3. -/
theorem test_update_three_rounds : update 3 Engine.canonical =
    { Engine.canonical with mem := [(2, 5), (3, 17), (5, 2), (17, 3)], i := 3, j := 17, k := 29 } := by decide
/-- V-U4: the new i equals the new j, so nothing moves. -/
theorem test_update_wraps : update 1 { Engine.canonical with w := 255 } =
    { Engine.canonical with w := 255, i := 255, j := 255, k := 254 } := by decide
/-- V-W1, V-W2. -/
theorem test_whip : whip 1 Engine.canonical = { Engine.canonical with i := 1, j := 1, k := 2, w := 3 } ∧
    whip 0 { Engine.canonical with w := 255 } = Engine.canonical := by decide
/-- V-C5, and V-C4's pair. -/
theorem test_crush : crushPairs 128 memC5 = [(0, 128), (127, 0), (128, 127)] ∧
    crushPairs 128 [(127, 128), (128, 127)] = [] := by decide +kernel
/-- V-N1, V-N3. -/
theorem test_absorbNibble : absorbNibble 5 Engine.canonical = afterN1 ∧
    absorbNibble 0 (absorbNibble 0 Engine.canonical) =
      { Engine.canonical with mem := [(0, 128), (1, 0), (128, 1)], a := 2 } := by decide

/-! Commands -/

/-- V-R1, V-R2. -/
theorem test_reset : (nextOf (exec .reset { heldState with engine := afterN1 })) = some State.reset ∧
    nextOf (exec .reset State.reset) = some State.reset := by decide
/-- V-A1: two different nibbles, so their order shows. -/
theorem test_absorb : engineAfter (.absorb 0x41) =
    some { Engine.canonical with mem := [(0, 129), (1, 132), (129, 0), (132, 1)], a := 2 } := by decide
/-- V-A2: the second nibble finds what the first left. -/
theorem test_absorb_FF : engineAfter (.absorb 0xFF) =
    some { Engine.canonical with mem := [(0, 143), (1, 0), (143, 1)], a := 2 } := by decide
/-- V-A5. -/
theorem test_absorbStop : engineAfter .absorbStop = some { Engine.canonical with a := 1 } := by decide
/-- R131: 127 counts to 128 with no shuffle. -/
theorem test_absorbStop_127 : (nextOf (exec .absorbStop (stateAt 127))).map State.engine = some (engineAt 128) := by
  decide
/-- V-E11. -/
theorem test_absorbNumber_32 : engineAfter (.absorbNumber 32) =
    some { Engine.canonical with mem := [(0, 128), (1, 130), (128, 0), (130, 1)], a := 2 } := by decide
/-- V-A7: the bytes of 0, 0x1234, 65536 and 2^32−1. -/
theorem test_numberBytes : numberBytes 0 = [0x00] ∧ numberBytes 0x1234 = [0x34, 0x12] ∧
    numberBytes 65536 = [0x00, 0x00, 0x01] ∧ numberBytes 4294967295 = [0xFF, 0xFF, 0xFF, 0xFF] := by decide +kernel
/-- V-S1 with the w of C1. -/
theorem test_squeeze_1 : engineAfter (.squeeze 1) = some { Engine.canonical with i := 1, j := 1, k := 2, z := 4 } ∧
    bytesAfter (.squeeze 1) = some [0x04] := by decide
/-- V-S2. -/
theorem test_squeeze_8 : bytesAfter (.squeeze 8) = some [0x04, 0x14, 0x45, 0xCE, 0x39, 0xFC, 0xE3, 0xDF] := by
  decide +kernel
/-- V-E12. -/
theorem test_squeezeXor : bytesAfter (.squeezeXor 0xFF) = some [0xFB] ∧
    engineAfter (.squeezeXor 0xFF) = engineAfter (.squeeze 1) := by decide

/-! Steps, the status register and the error hold -/

/-- V-E1, V-E3: STATUS 0x06 and 0x0A, the engine unchanged. -/
theorem test_step_illegal : (stepWord 0x0000000000000000 State.reset).map statusByte = some 0x06 ∧
    (stepWord 0x0200000000000141 State.reset).map statusByte = some 0x0A ∧
    (stepWord 0x0200000000000141 State.reset).map State.engine = some Engine.canonical := by decide
/-- V-E6: STATUS 0x1A with a = 2. -/
theorem test_step_illegal_absorbing : (stepWord 0x0400000100000000 (stateAt 2)).map statusByte = some 0x1A := by decide
/-- V-E7, V-E8, V-E9: discarded; the first code is kept. -/
theorem test_step_held : stepWord 0x0200000000000041 heldState = some heldState ∧
    stepWord 0x0100000000000001 heldState = some heldState ∧
    stepWord 0x0500000000000004 heldState = some heldState := by decide
/-- V-E10. -/
theorem test_step_reset_ends_the_hold : stepWord 0x0100000000000000 heldState = some State.reset := by decide
/-- R71, R72: a busy engine holds the word and gives its bytes, head first. -/
theorem test_step_busy : (nextOf (step (waiting { send 0x0100000000000000 with outReady := true }))).map
    (fun t => (t.offered, t.outq, t.taken)) = some (some 0x0100000000000000, [0xFB], [0x28]) := by decide
/-- R240: the hardware reset empties OUTQ. -/
theorem test_step_hardware_reset : (nextOf (step (waiting resetEdge))) = some State.reset := by decide
/-- U9: the held word withdrawn. -/
theorem test_step_changed_offer : nextOf (step { waiting quiet with offered := some 0x0300000000000000 }) = none := by
  decide
/-- The word a row asks about is the next step's. -/
theorem test_withFetchWord : (nextOf (step (State.reset.withFetchWord 64 0x0500000000000001))).map State.outq =
    some [0x04] := by decide

/-! The assembler -/

/-- P4's lines and R83's forms. -/
theorem test_assemble_lines : assembleLine "absorb 'A'   ; 0x41".toList = some [0x0200000000000041] ∧
    assembleLine ".word 0x0700000000000000".toList = some [0x0700000000000000] ∧
    assembleLine "absorb 256".toList = none ∧
    assembleLine "squeeze_xor.buf".toList = some [0x0500000000000000] := by decide +kernel
/-- V-A4 as text, and a `;` inside a literal. -/
theorem test_assemble_text : assemble "absorb.bytes \"ABC\"\nabsorb ';'" =
    some [0x0200000000000041, 0x0200000000000042, 0x0200000000000043, 0x020000000000003B] := by decide +kernel

/-! Witnesses: one for each statement with hypotheses, every clause at a boundary of its range -/

theorem afterN1_involution : ∀ x : Byte, afterN1.mem.read (afterN1.mem.read x) = x := by decide +kernel

theorem afterN1_permutation : afterN1.mem.isPermutation :=
  ⟨fun x y h => by rw [← afterN1_involution x, h, afterN1_involution y], fun v => ⟨_, afterN1_involution v⟩⟩

theorem test_witness_EncodedWord : (Instr.squeeze 4294967295).wellFormed = true := by decide
theorem test_witness_LegalWord : decode 0x0400000000000000#64 = .legal (.absorbNumber 0) := by decide
/-- An opcode outside the table; one inside with `rsv` set; and for each opcode a word with `rsv` zero. -/
theorem test_witness_DecodeFollows :
    (0xFF00000000000000#64).extractLsb' 56 8 ∉ [0x01#8, 0x02#8, 0x03#8, 0x04#8, 0x05#8, 0x06#8] ∧
    (0x0180000000000000#64).extractLsb' 56 8 ∈ [0x01#8, 0x02#8, 0x03#8, 0x04#8, 0x05#8, 0x06#8] ∧
    (0x0180000000000000#64).extractLsb' 32 24 ≠ 0 ∧
    ∀ op ∈ [0x01#8, 0x02#8, 0x03#8, 0x04#8, 0x05#8, 0x06#8],
      (op ++ 0#24 ++ 0x80000000#32 : CmdWord).extractLsb' 56 8 = op ∧
      (op ++ 0#24 ++ 0x80000000#32 : CmdWord).extractLsb' 32 24 = 0 := by decide
/-- Operands at the edges of the three ranges. -/
theorem test_witness_AssemblerSpells : parseNumber "255".toList = some 255 ∧ parseNumber "256".toList = some 256 ∧
    parseNumber "4294967295".toList = some 4294967295 ∧ parseNumber "0x100000000".toList = some 4294967296 ∧
    parseNumber "0xffffffffFFFFFFFF".toList = some 18446744073709551615 ∧
    parseNumber "18446744073709551616".toList = some 18446744073709551616 ∧
    parseNumber "' '".toList = some 32 := by decide +kernel

/-- Operands at the edge of u8, a comma, a blank and a double quote as literals; a string with a `;`. -/
theorem test_witness_AssemblerReadsByteLists : parseNumber "255".toList = some 255 ∧
    parseNumber "0x100".toList = some 256 ∧ parseNumber "','".toList = some 44 ∧
    parseNumber "' '".toList = some 32 ∧ parseNumber "'\"'".toList = some 34 ∧
    "A;,'".toList.all (fun c => decide (c.toNat < 128) && c != '"') = true := by decide +kernel
/-- R83 by hand: `,` is 0x2C, a blank 0x20, `;` 0x3B. -/
theorem test_assemble_byte_lists :
    assembleLine "absorb.bytes ',', 0x10 ; c".toList = some [0x020000000000002C, 0x0200000000000010] ∧
    assembleLine "squeeze_xor.buf 7, ' '".toList = some [0x0600000000000007, 0x0600000000000020] ∧
    assembleLine "absorb.bytes \";\"".toList = some [0x020000000000003B] := by decide +kernel

/-- A state in which a word transfers: the held word itself, STATUS read at the same edge. -/
def transferring (w : CmdWord) : State :=
  { State.reset with host := [{ send w with readStatus := true }], offered := some w }

theorem test_witness_StepPerforms :
    (transferring 0x0500000000000001).host = { send 0x0500000000000001 with readStatus := true } :: [] ∧
    (transferring 0x0500000000000001).outq = [] ∧
    (transferring 0x0500000000000001).offered = some 0x0500000000000001 ∧
    decode 0x0500000000000001#64 = .legal (.squeeze 1) := by decide
theorem test_witness_IllegalWord :
    (transferring 0x0700000000000000).host = { send 0x0700000000000000 with readStatus := true } :: [] ∧
    (transferring 0x0700000000000000).outq = [] ∧
    (transferring 0x0700000000000000).offered = some 0x0700000000000000 ∧
    decode 0x0700000000000000#64 = .illegal .illegalOpcode := by decide
/-- Opcodes 0x00 and 0x07 with every reserved bit set; a first and a later illegal word; a discarded legal word. -/
theorem test_witness_FirstIllegalCode :
    (0x00FFFFFFFFFFFFFF#64).extractLsb' 56 8 ∉ [0x01#8, 0x02#8, 0x03#8, 0x04#8, 0x05#8, 0x06#8] ∧
    (0x07FFFFFFFFFFFFFF#64).extractLsb' 56 8 ∉ [0x01#8, 0x02#8, 0x03#8, 0x04#8, 0x05#8, 0x06#8] ∧
    State.reset.err = false ∧ heldState.err = true ∧ decode 0x0300000000000001#64 = .illegal .reservedBits ∧
    decode 0x0200000000000041#64 ≠ .legal .reset ∧
    nextOf (accept 0x0200000000000041 heldState) = some heldState := by decide
theorem test_witness_HeldEngine : heldState.err = true ∧ decode 0x0100000000000000#64 = .legal .reset ∧
    decode 0x0500000000000004#64 ≠ .legal .reset := by decide
/-- ERR rises; falls at RESET and at the hardware reset; stays. -/
theorem test_witness_ErrorFlag :
    (stepWord 0x0700000000000000 State.reset).map State.err = some true ∧
    (stepWord 0x0100000000000000 heldState).map State.err = some false ∧
    (nextOf (step { heldState with host := [resetEdge] })).map State.err = some false ∧
    (nextOf (step { heldState with host := [quiet] })).map State.err = some true := by decide
theorem test_witness_BusyEngine : (waiting (send 0x0300000000000000)).outq ≠ [] ∧
    (nextOf (step (waiting (send 0x0300000000000000)))).isSome = true := by decide
theorem test_witness_OutputTransfer : (waiting takeByte).outq = 0x28 :: [0xFB] ∧
    (waiting takeByte).offered = none ∧ takeByte.outReady = true ∧ quiet.outReady = false ∧
    (nextOf (step State.reset)).isSome = true ∧ State.reset.outq = [] := by decide
theorem test_witness_NoOutputByteIsLost :
    (nextOf (step (transferring 0x0500000000000002))).isSome = true ∧
    (transferring 0x0500000000000002).transfersNext = some 0x0500000000000002 ∧
    (transferring 0x0500000000000002).host.all HostDrive.rstN = true := by decide
theorem test_witness_HardwareReset : (waiting resetEdge).host = resetEdge :: [] ∧ resetEdge.rstN = false := by decide
theorem test_witness_BothResets : (stateAt 5).outq = [] := by decide
theorem test_witness_StatusRegister : (stateAt 1).outq = [] ∧ (waiting quiet).outq ≠ [] := by decide
theorem test_witness_StatusRead :
    (nextOf (step { waiting quiet with host := { takeByte with readStatus := false } :: [] })).isSome = true := by decide
theorem test_witness_EngineChanges : (stepWord 0x0300000000000000 State.reset).map State.engine = some (engineAt 1) ∧
    (driveCommand 0x0300000000000000 State.reset).engine ≠ engineAt 1 := by decide
/-- Both sides of the alternative. -/
theorem test_witness_StepStops : (nextOf (step (waiting quiet))).isSome = true ∧
    nextOf (step { waiting (send 0x0100000000000000) with offered := some 0x0300000000000000 }) = none := by decide
theorem test_witness_IdleEngine : State.reset.host = [] ∧ quiet.rstN = true ∧ quiet.cmd = none ∧
    quiet.readStatus = false ∧ State.reset.offered = none ∧ State.reset.outq = [] := by decide

/-- Two hosts that send SQUEEZE 2 and take its bytes at different edges; one reads STATUS meanwhile. -/
def promptHost : List HostDrive := [send 0x0500000000000002, takeByte, takeByte]
def slowHost : List HostDrive :=
  [quiet, send 0x0500000000000002, quiet, { takeByte with readStatus := true }, quiet, takeByte]

theorem test_witness_OutputDoesNotDepend :
    promptHost.all HostDrive.rstN = true ∧ slowHost.all HostDrive.rstN = true ∧
    (nextOf (runSteps 3 { State.reset with host := promptHost })).map runEnded = some true ∧
    (nextOf (runSteps 6 { State.reset with host := slowHost })).map runEnded = some true ∧
    acceptedWords 3 { State.reset with host := promptHost } = [0x0500000000000002] ∧
    acceptedWords 6 { State.reset with host := slowHost } = [0x0500000000000002] := by decide

/-- A state that is not reset's and meets the invariant. -/
def invState : State := { State.reset with engine := afterN1, host := [send 0x0200000000000041] }

theorem test_witness_EveryStep : invState.Inv ∧ (nextOf (step invState)).isSome = true :=
  ⟨⟨⟨by decide, afterN1_permutation, by decide⟩, by decide⟩, by decide⟩
theorem test_witness_EachPrimitive : afterN1.mem.wf = true ∧ afterN1.mem.isPermutation :=
  ⟨by decide, afterN1_permutation⟩
theorem test_witness_OddW : isOdd (stateAt 3).engine.w ∧ (nextOf (step (stateAt 3))).isSome = true ∧
    isOdd ({ Engine.canonical with w := 255 } : Engine).w := by decide
/-- A round that moves two bytes, and one whose new i equals its new j. -/
theorem test_witness_UpdateRound : afterN1.mem.wf = true ∧ Engine.canonical.mem.wf = true ∧
    (update 1 Engine.canonical).i = (update 1 Engine.canonical).j ∧
    (update 1 (update 1 Engine.canonical)).i ≠ (update 1 (update 1 Engine.canonical)).j := by decide
theorem test_witness_WhipAndShuffle : ({ Engine.canonical with w := 255 } : Engine).w = 255 := by decide
/-- The last pair out of order, the first pair in order. -/
theorem test_witness_CrushOrders : memC5.wf = true ∧ (127 : Byte) < 128 ∧
    memC5.read 127 > memC5.read (255 - 127) ∧ ¬ memC5.read 0 > memC5.read (255 - 0) := by decide
theorem test_witness_CrushIsOrderFree : memC5.wf = true ∧ (List.range 128).reverse.Perm (List.range 128) ∧
    afterN1.mem.wf = true ∧ afterN1.mem.isPermutation ∧ (0 : Byte) < 128 :=
  ⟨by decide, List.reverse_perm _, by decide, afterN1_permutation, by decide⟩
theorem test_witness_ShuffleReads : (stateAt 1).err = false ∧ 1 ≤ (stateAt 1).engine.a.val ∧
    (stateAt 127).err = false ∧ (stateAt 127).engine.a.val ≤ 127 := by decide
theorem test_witness_AbsorbNibble : (engineAt 127).mem.wf = true ∧ (engineAt 127).a.val = 127 ∧
    (engineAt 128).mem.wf = true ∧ (engineAt 128).a.val = 128 := by decide

theorem test_witness_ResetCommand : State.reset.engine = Engine.canonical ∧ State.reset.err = false ∧
    State.reset.errCode = none ∧ (0x0100000000000001#64).extractLsb' 56 8 = 0x01#8 ∧
    (0x0100000000000001#64 : CmdWord) ≠ 0x0100000000000000#64 := by decide
/-- ABSORB's three cases of a: 126, 127 and 128; a legal and an illegal word. -/
theorem test_witness_AbsorbSwaps : (∀ a ∈ [126, 127, 128], (stateAt a).err = false ∧
    (stateAt a).engine.mem.wf = true ∧ (stateAt a).engine.a = a) ∧
    (0x02000000000000FF#64).extractLsb' 56 8 = 0x02#8 ∧ (0x0200000000000100#64).extractLsb' 56 8 = 0x02#8 := by decide
theorem test_witness_AbsorbStop : (stateAt 127).err = false ∧ (stateAt 127).engine.a.val < 128 ∧
    (stateAt 128).err = false ∧ (stateAt 128).engine.a.val = 128 ∧
    (0x0300000000000001#64).extractLsb' 56 8 = 0x03#8 := by decide
/-- The edges of the four lengths of R132. -/
theorem test_witness_AbsorbNumber : State.reset.err = false ∧ (numberBytes 255).length = 1 ∧
    (numberBytes 256).length = 2 ∧ (numberBytes 65535).length = 2 ∧ (numberBytes 65536).length = 3 ∧
    (numberBytes 16777215).length = 3 ∧ (numberBytes 16777216).length = 4 ∧
    (0x0480000000000000#64).extractLsb' 56 8 = 0x04#8 := by decide +kernel
theorem test_witness_Squeeze : (stateAt 0).err = false ∧ ¬ (stateAt 0).engine.a.val > 0 ∧
    (stateAt 128).err = false ∧ (stateAt 128).engine.a.val > 0 ∧
    (0x0500000100000000#64).extractLsb' 56 8 = 0x05#8 := by decide
theorem test_witness_SqueezeXor : (stateAt 0).err = false ∧ (stateAt 1).err = false ∧
    (stateAt 1).engine.a.val > 0 ∧ (0x0600000000000100#64).extractLsb' 56 8 = 0x06#8 := by decide
theorem test_witness_ConsecutiveSqueezes :
    expand (.squeezeWide 8589934591) = [.squeeze 4294967295, .squeeze 4294967295, .squeeze 1] ∧
    expand (.squeezeWide 4294967295) = [.squeeze 4294967295] := by decide
theorem test_witness_SqueezeZero : (stateAt 1).err = false ∧ 0 < (stateAt 1).engine.a.val ∧
    (stateAt 0).err = false ∧ (stateAt 0).engine.a.val = 0 := by decide
/-- Each of the three commands completes, held and not. -/
theorem test_witness_AbsorbFamily : ∀ i ∈ [Instr.absorb 0x41, .absorbStop, .absorbNumber 256],
    (nextOf (exec i State.reset)).isSome = true ∧ nextOf (exec i heldState) = some heldState := by decide
/-- One byte in the last two positions; an index outside them and outside its nibble targets; a stop at 127. -/
theorem test_witness_AbsorbStores : (stateAt 126).err = false ∧ (stateAt 126).engine.mem.wf = true ∧
    (stateAt 126).engine.a.val + 2 * [(0x41 : Byte)].length ≤ 128 ∧
    (nextOf (exec (.absorb 0x41) (stateAt 126))).isSome = true ∧
    (125 : Byte).toNat < (stateAt 126).engine.a.val ∧ 128 ≤ (128 : Byte).toNat ∧
    (∀ b ∈ [(0x41 : Byte)], (128 : Byte) ≠ nibbleIndex (lowNibble b) ∧ (128 : Byte) ≠ nibbleIndex (highNibble b)) ∧
    (stateAt 127).engine.a.val < 128 ∧ (nextOf (exec .absorbStop (stateAt 127))).isSome = true := by decide
theorem test_witness_SqueezeStores : State.reset.err = false ∧ State.reset.engine.mem.wf = true ∧
    (nextOf (exec (.squeeze 2) State.reset)).isSome = true ∧
    ∀ m < 2, (7 : Byte) ≠ (update (m + 1) Engine.canonical).i ∧ (7 : Byte) ≠ (update (m + 1) Engine.canonical).j := by
  decide
theorem test_witness_AbsorbBytes : ([] : List Byte) = [] ∧ expand (.absorbBytes [1, 2]) = [.absorb 1, .absorb 2] := by
  decide
theorem test_witness_AbsorbNumberWide : (Instr.absorb 0) ∈ expand (.absorbNumberWide 4294967296) ∧
    expand (.absorbNumberWide 4294967295) = [.absorbNumber 4294967295] := by decide +kernel
theorem test_witness_SqueezeXorBuf : State.reset.err = false ∧
    writeBack [0x48, 0x69, 0x21] [0x28, 0xFB, 0x9D] = [0x28, 0xFB, 0x9D] := by decide
theorem test_witness_Decrypts : (stateAt 6).err = false := by decide
theorem test_witness_Driver : (-1 : Int) < 0 ∧ driverAbsorbNumber (-1) = none ∧
    driverAbsorbNumber 5 = some [.absorbNumber 5] := by decide

/-- Two drips, counted by hand from R106: two rounds, six nested reads, two final reads. -/
theorem test_counted_squeeze :
    (countedCommand (.squeeze 2) { engine := Engine.canonical, work := Work.zero }).work =
      { rounds := 2, compares := 0, nestedReads := 6, finalReads := 2 } := by decide
/-- R112: 128 compare steps, exchange or not. -/
theorem test_counted_crush :
    (countedCrushOf 128 { engine := { Engine.canonical with mem := memC5 }, work := Work.zero }).work =
      { Work.zero with compares := 128 } := by decide +kernel
/-- Each clause at its boundary: no room for a fourth byte, room for all four, the last two positions, the largest n. -/
theorem test_witness_WorkOfOneCommand : (stateAt 121).err = false ∧
    128 < (engineAt 121).a.val + 2 * (numberBytes 4294967295).length ∧
    ¬ 128 < (engineAt 120).a.val + 2 * (numberBytes 4294967295).length ∧ 4294967295 < 2 ^ 32 ∧
    127 ≤ (engineAt 127).a.val ∧ ¬ 127 ≤ (engineAt 126).a.val ∧ (engineAt 128).a.val = 128 ∧
    (engineAt 126).a.val + 2 * [(0x41 : Byte)].length ≤ 128 := by decide +kernel
/-- log 15: a value of 2^64 is refused, the largest 64-bit value is not; a CR is no blank. -/
theorem test_assemble_word_range : assembleLine ".word 18446744073709551616".toList = none ∧
    assembleLine ".word 18446744073709551615".toList = some [0xFFFFFFFFFFFFFFFF] ∧
    assemble "reset\r\n" = none := by decide +kernel

end Sys2Proof.Tests
end

section
/-! SUPPORT. Properties of the engine that every command keeps: a predicate that survives the elementary moves of the
primitives survives every step (R22, R24, R25, R107). -/

namespace Sys2Proof.Machine

/-! mem as a permutation -/

/-- A permutation of 0..255 is a bijective reading function (R22). -/
theorem Memory.isPermutation_iff_bijective {m : Memory} : m.isPermutation ↔ Function.Bijective m.read := Iff.rfl

/-- An exchange of two readings is the reading after a transposition of the indices. -/
theorem exchanged_eq_comp_swap (f : Byte → Byte) (p q : Byte) : exchanged f p q = f ∘ Equiv.swap p q := by
  funext x
  simp only [exchanged, Function.comp_apply, Equiv.swap_apply_def]
  split_ifs <;> rfl

/-- A swap keeps mem a permutation (R107). -/
theorem Memory.isPermutation_swap {m : Memory} (hwf : m.wf = true) (hm : m.isPermutation) (p q : Byte) :
    (m.swap p q).isPermutation := by
  have hread : (m.swap p q).read = m.read ∘ Equiv.swap p q := by
    rw [← exchanged_eq_comp_swap]
    exact funext (Memory.read_swap hwf p q)
  rw [Memory.isPermutation_iff_bijective] at hm ⊢
  rw [hread]
  exact hm.comp (Equiv.swap p q).bijective

/-- The canonical initial mem is a permutation (R42). -/
theorem Memory.isPermutation_nil : Memory.isPermutation [] :=
  ⟨fun x y h => by simpa using h, fun v => ⟨v, Memory.read_nil v⟩⟩

/-! The elementary moves of the primitives -/

/-- `P` survives every elementary move of the primitives R100 to R106: a swap in mem, a new value of the registers
other than w, and what a whip adds to w. -/
structure KeptByMoves (P : Engine → Prop) : Prop where
  swap : ∀ {e : Engine} (p q : Byte), P e → P { e with mem := e.mem.swap p q }
  registers : ∀ {e : Engine} (i j k z : Byte) (a : Fin 129), P e → P { e with i := i, j := j, k := k, z := z, a := a }
  whipEnd : ∀ {e : Engine}, P e → P { e with w := e.w + Config.whipIncrement }

section
variable {P : Engine → Prop} (hP : KeptByMoves P) {e : Engine} (he : P e)
include hP he

theorem kept_updateRound : P (updateRound e) := hP.registers _ _ _ e.z e.a (hP.swap _ _ he)

theorem kept_update (n : Nat) : P (update n e) := by
  induction n with
  | zero => exact he
  | succ n ih => exact kept_updateRound hP ih

theorem kept_whip (n : Nat) : P (whip n e) := hP.whipEnd (kept_update hP he n)

theorem kept_crushPair (v : Byte) : P { e with mem := crushPair e.mem v } := by
  obtain h | h := crushPair_cases e.mem v <;> rw [h]
  · exact hP.swap _ _ he
  · exact he

theorem kept_crushOf (n : Nat) : P (crushOf n e) := by
  induction n with
  | zero => exact he
  | succ n ih => exact kept_crushPair hP ih _

theorem kept_shuffleOf (n p : Nat) : P (shuffleOf n p e) := by
  have hfirst := kept_crushOf hP (kept_whip hP he n) p
  have hsecond := kept_crushOf hP (kept_whip hP hfirst n) p
  rw [shuffleOf_eq]
  exact hP.registers _ _ _ _ 0 (kept_whip hP hsecond n)

theorem kept_shuffle : P (shuffle e) := kept_shuffleOf hP he _ _

theorem kept_makeRoom : P (makeRoom e) := by
  unfold makeRoom
  split
  · exact kept_shuffle hP he
  · exact he

theorem kept_absorbNibble (x : Nibble) : P (absorbNibble x e) :=
  hP.registers _ _ _ _ (countNibble (makeRoom e).a) (hP.swap _ _ (kept_makeRoom hP he))

theorem kept_absorbByte (b : Byte) : P (absorbByte b e) := kept_absorbNibble hP (kept_absorbNibble hP he _) _

theorem kept_absorbStop : P (absorbStop e) :=
  hP.registers _ _ _ _ (countNibble (makeRoom e).a) (kept_makeRoom hP he)

theorem kept_dripOne : P (dripOne e) := hP.registers _ _ _ _ _ (kept_update hP he 1)

theorem kept_finishAbsorbing : P (finishAbsorbing e) := by
  unfold finishAbsorbing
  split
  · exact kept_shuffle hP he
  · exact he

end

section
variable {P : Engine → Prop} (hP : KeptByMoves P)
include hP

theorem kept_absorbBytes (bs : List Byte) {e : Engine} (he : P e) : P (absorbBytes bs e) := by
  induction bs generalizing e with
  | nil => exact he
  | cons b bs ih => exact ih (kept_absorbByte hP he b)

theorem kept_drips (n : Nat) {s : State} (hs : P s.engine) : P (drips n s).engine := by
  induction n generalizing s with
  | zero => exact hs
  | succ n ih => exact ih (kept_dripOne hP hs)

omit hP in
/-- Held or performed, a command leaves an engine with `P` if both outcomes have it (R204). -/
theorem unlessHeld_engine_of {s t : State} (hs : P s.engine) (ht : P t.engine) : P (unlessHeld s t).engine := by
  unfold unlessHeld
  split
  · exact hs
  · exact ht

/-- Every command keeps what the moves keep and the canonical state has. -/
theorem kept_exec (hc : P Engine.canonical) {i : Instr} {s t : State} (h : exec i s = .next t) (hs : P s.engine) :
    P t.engine := by
  cases i with
  | reset => cases h; exact hc
  | absorb b => cases h; exact unlessHeld_engine_of hs (kept_absorbByte hP hs b)
  | absorbStop => cases h; exact unlessHeld_engine_of hs (kept_absorbStop hP hs)
  | absorbNumber n => cases h; exact unlessHeld_engine_of hs (kept_absorbBytes hP _ hs)
  | squeeze n => cases h; exact unlessHeld_engine_of hs (kept_drips hP n (kept_finishAbsorbing hP hs))
  | squeezeXor d => cases h; exact unlessHeld_engine_of hs (kept_dripOne hP (kept_finishAbsorbing hP hs))

end

end Sys2Proof.Machine
end

section
/-! SUPPORT. What one step does to the engine, the error and the bytes for the host, by what the edge transfers. -/

namespace Sys2Proof.Machine

/-- The machine as the rules of R201 and R204 see it is the same in both states: the engine, the error, and the bytes
the host has and will get. -/
structure SameMachine (s t : State) : Prop where
  engine : t.engine = s.engine
  err : t.err = s.err
  errCode : t.errCode = s.errCode
  bytes : t.taken ++ t.outq = s.taken ++ s.outq

/-- The four things a step from `s` to `t` can be: the hardware reset, an edge that transfers no word, the performance
of a legal word, and the exception of an illegal one. `u` is the state the edge finds once the drive is taken and a
STATUS read is served. -/
inductive StepEffect (s t : State) : Prop
  | hardReset (u : State) (resets : s.resetsNext) (transfers : s.transfersNext = none) (result : t = hardReset u)
  | quiet (resets : ¬ s.resetsNext) (transfers : s.transfersNext = none) (same : SameMachine s t)
  | legal (w : CmdWord) (i : Instr) (u : State) (resets : ¬ s.resetsNext) (transfers : s.transfersNext = some w)
      (decodes : decode w = .legal i) (same : SameMachine s u) (result : exec i u = .next t)
  | illegal (w : CmdWord) (c : IllegalCode) (u : State) (resets : ¬ s.resetsNext) (transfers : s.transfersNext = some w)
      (decodes : decode w = .illegal c) (same : SameMachine s u) (result : t = raiseIllegal c u)

/-- The edge asserts the hardware reset exactly when its drive does (R240). -/
theorem resetsNext_cons {s : State} {d : HostDrive} {rest : List HostDrive} (hh : s.host = d :: rest) :
    s.resetsNext ↔ d.rstN = false := by
  simp [State.resetsNext, hh]

theorem not_resetsNext_nil {s : State} (hh : s.host = []) : ¬ s.resetsNext := by
  simp [State.resetsNext, hh]

theorem transfersNext_nil {s : State} (hh : s.host = []) : s.transfersNext = none := by
  simp [State.transfersNext, hh]

section
variable {s : State} {d : HostDrive} {rest : List HostDrive} (hh : s.host = d :: rest)
include hh

theorem transfersNext_of_reset (hr : d.rstN = false) : s.transfersNext = none := by
  simp [State.transfersNext, hh, hr]

theorem transfersNext_of_busy (hq : s.outq ≠ []) : s.transfersNext = none := by
  simp [State.transfersNext, hh, busy, hq]

theorem transfersNext_of_no_word (hw : d.cmd = none) : s.transfersNext = none := by
  simp [State.transfersNext, hh, hw]

/-- An offered word transfers when no reset is asserted, the offer is unbroken and OUTQ is empty (R70, R71). -/
theorem transfersNext_of_ready (hr : d.rstN = true) (ho : offerBroken d.cmd s = false) (hq : s.outq = []) :
    s.transfersNext = d.cmd := by
  simp [State.transfersNext, hh, hr, ho, hq, busy]

end

/-- What the edge finds, with any word held on the port, is the machine before it (R73). -/
theorem sameMachine_beginEdge (d : HostDrive) (rest : List HostDrive) (offered : Option CmdWord) (s : State) :
    SameMachine s { beginEdge d rest s with offered := offered } := by
  constructor <;> simp

/-- The output handshake changes the machine only in who holds its bytes (R72). -/
theorem SameMachine.transferOutput {s u : State} (h : SameMachine s u) (r : Bool) :
    SameMachine s (transferOutput r u) where
  engine := by rw [transferOutput_engine, h.engine]
  err := by rw [transferOutput_err, h.err]
  errCode := by rw [transferOutput_errCode, h.errCode]
  bytes := by rw [transferOutput_bytes, h.bytes]

/-- Every step is one of the four. -/
theorem step_effect {s t : State} (h : step s = .next t) : StepEffect s t := by
  obtain ⟨hh, rfl⟩ | ⟨d, rest, hh, hedge⟩ := step_cases h
  · exact .quiet (not_resetsNext_nil hh) (transfersNext_nil hh) ⟨rfl, rfl, rfl, rfl⟩
  · obtain ⟨hr, ht⟩ | ⟨hr, ho, hport⟩ := hedge
    · exact .hardReset _ ((resetsNext_cons hh).2 hr) (transfersNext_of_reset hh hr) ht
    · have hnot : ¬ s.resetsNext := by simp [resetsNext_cons hh, hr]
      obtain ⟨hw, rfl⟩ | ⟨w, hw, hq, hacc⟩ | ⟨w, -, hq, rfl⟩ := hport
      · exact .quiet hnot (transfersNext_of_no_word hh hw) ((sameMachine_beginEdge d rest _ s).transferOutput _)
      · have htn : s.transfersNext = some w := by rw [transfersNext_of_ready hh hr ho hq, hw]
        obtain ⟨i, hd, he⟩ | ⟨c, hd, ht⟩ := accept_cases hacc
        · exact .legal w i _ hnot htn hd (sameMachine_beginEdge d rest none s) he
        · exact .illegal w c _ hnot htn hd (sameMachine_beginEdge d rest none s) ht
      · exact .quiet hnot (transfersNext_of_busy hh hq) ((sameMachine_beginEdge d rest _ s).transferOutput _)

/-- Every step keeps what the moves keep and the canonical state has. -/
theorem kept_step {P : Engine → Prop} (hP : KeptByMoves P) (hc : P Engine.canonical) {s t : State}
    (h : step s = .next t) (hs : P s.engine) : P t.engine := by
  cases step_effect h with
  | hardReset u _ _ ht => rw [ht]; exact hc
  | quiet _ _ hsame => rwa [hsame.engine]
  | legal w i u _ _ _ hsame hexec => exact kept_exec hP hc hexec (by rwa [hsame.engine])
  | illegal w c u _ _ _ hsame ht => rw [ht, raiseIllegal_frame]; rwa [hsame.engine]

/-- Held or performed, a command leaves the error if its performance does (R204). -/
theorem unlessHeld_error_of {s t : State} (ht : t.err = s.err ∧ t.errCode = s.errCode) :
    (unlessHeld s t).err = s.err ∧ (unlessHeld s t).errCode = s.errCode := by
  unfold unlessHeld
  split
  · exact ⟨rfl, rfl⟩
  · exact ht

/-- A command leaves the error as it is, or is the RESET that clears it (R170, R204). -/
theorem exec_error_cases {i : Instr} {s t : State} (h : exec i s = .next t) :
    (t.err = s.err ∧ t.errCode = s.errCode) ∨ (i = .reset ∧ t.err = false ∧ t.errCode = none) := by
  cases i with
  | reset => cases h; exact .inr ⟨rfl, rfl, rfl⟩
  | squeeze n =>
    cases h
    obtain ⟨herr, hcode, -⟩ := drips_frame n { s with engine := finishAbsorbing s.engine }
    exact .inl (unlessHeld_error_of ⟨herr, hcode⟩)
  | absorb _ | absorbStop | absorbNumber _ | squeezeXor _ => cases h; exact .inl (unlessHeld_error_of ⟨rfl, rfl⟩)

/-- Of the commands, RESET alone ends the hold (R204, R211). -/
theorem exec_held_err_iff {i : Instr} {s t : State} (h : exec i s = .next t) (he : s.err = true) :
    t.err = false ↔ i = .reset := by
  constructor
  · intro ht
    obtain rfl | ⟨hi, -⟩ := exec_held h he
    · simp [he] at ht
    · exact hi
  · rintro rfl
    cases h
    rfl

/-- A command that leaves the hold standing has changed nothing (R204). -/
theorem exec_held_eq {i : Instr} {s t : State} (h : exec i s = .next t) (he : s.err = true) (ht : t.err = true) :
    t = s :=
  (exec_held h he).resolve_right fun ⟨_, hreset⟩ => by simp [hreset] at ht

/-- How many bytes a word emits depends on the state's ERR alone (R150, R151, R204). -/
theorem emittedCount_congr {s t : State} (h : t.err = s.err) (w : CmdWord) : emittedCount t w = emittedCount s w := by
  rw [emittedCount, emittedCount, h]

/-- A command appends to OUTQ the bytes R150 and R151 count, and none while it is held (R204). -/
theorem exec_outq {i : Instr} {s t : State} {w : CmdWord} (h : exec i s = .next t) (hd : decode w = .legal i) :
    ∃ bytes, t.outq = s.outq ++ bytes ∧ bytes.length = emittedCount s w := by
  cases he : s.err with
  | true =>
    have hq : t.outq = s.outq := by obtain rfl | ⟨-, rfl⟩ := exec_held h he <;> rfl
    exact ⟨[], by simp [hq], by simp [emittedCount, he]⟩
  | false =>
    cases i with
    | reset => cases h; exact ⟨[], by simp [emittedCount, he, hd]⟩
    | absorb _ | absorbStop | absorbNumber _ =>
      cases h
      exact ⟨[], by simp [he], by simp [emittedCount, he, hd]⟩
    | squeeze n =>
      cases h
      rw [unlessHeld_clear _ _ he, drips_eq]
      exact ⟨_, rfl, by simp [emittedCount, he, hd]⟩
    | squeezeXor d =>
      cases h
      rw [unlessHeld_clear _ _ he]
      exact ⟨_, rfl, by simp [emittedCount, he, hd]⟩

end Sys2Proof.Machine
end

section
/-! SUPPORT. The statements of 10_state.md. -/

namespace Sys2Proof.Machine

/-! The invariant -/

/-- The moves keep mem in canonical form and a permutation (R107). -/
theorem keptByMoves_mem : KeptByMoves fun e => e.mem.wf = true ∧ e.mem.isPermutation where
  swap p q h := ⟨Memory.wf_swap h.1 p q, Memory.isPermutation_swap h.1 h.2 p q⟩
  registers _ _ _ _ _ h := h
  whipEnd h := h

/-- Adding 2 modulo 256 keeps a byte odd (R24). -/
theorem isOdd_add_two {b : Byte} (h : isOdd b) : isOdd (b + Config.whipIncrement) := by
  rw [isOdd, BitVec.toNat_add, show Config.whipIncrement.toNat = 2 from rfl]
  unfold isOdd at h
  omega

/-- The moves keep w odd (R24, R25). -/
theorem keptByMoves_oddW : KeptByMoves fun e => isOdd e.w where
  swap _ _ h := h
  registers _ _ _ _ _ h := h
  whipEnd h := isOdd_add_two h

theorem inv_canonical : Engine.canonical.Inv := ⟨rfl, Memory.isPermutation_nil, rfl⟩

/-- Every step keeps the engine's invariant. -/
theorem step_engine_inv {s t : State} (h : step s = .next t) (hs : s.engine.Inv) : t.engine.Inv := by
  obtain ⟨hwf, hperm⟩ := kept_step keptByMoves_mem ⟨rfl, Memory.isPermutation_nil⟩ h ⟨hs.memWf, hs.memPermutation⟩
  exact ⟨hwf, hperm, kept_step keptByMoves_oddW rfl h hs.wOdd⟩

/-- Every step keeps ERRCODE 0 exactly when ERR is 0 (R35). -/
theorem step_errCode_iff {s t : State} (h : step s = .next t) (hs : s.errCode = none ↔ s.err = false) :
    t.errCode = none ↔ t.err = false := by
  cases step_effect h with
  | hardReset u _ _ ht => simp [ht]
  | quiet _ _ hsame => rwa [hsame.err, hsame.errCode]
  | legal w i u _ _ _ hsame hexec =>
    obtain ⟨herr, hcode⟩ | ⟨-, herr, hcode⟩ := exec_error_cases hexec
    · rwa [herr, hcode, hsame.err, hsame.errCode]
    · simp [herr, hcode]
  | illegal w c u _ _ _ hsame ht =>
    rw [ht, raiseIllegal_frame, hsame.err, hsame.errCode]
    cases he : s.err <;> simp [hs, he]

/-- Settles O24: the moves keep the engine's invariant, and no step parts ERRCODE from ERR. -/
theorem everyStepKeepsTheInvariant : Obligations.EveryStepKeepsTheInvariant := fun _ _ hs h =>
  ⟨step_engine_inv h hs.engine, step_errCode_iff h hs.errCode⟩

/-- Settles O23: the canonical engine meets its invariant, and no error stands. -/
theorem resetStateMeetsTheInvariant : Obligations.ResetStateMeetsTheInvariant := ⟨inv_canonical, by decide⟩

/-! ERR, the output bytes and the engine over a step -/

/-- Settles O11, by what the edge transfers. -/
theorem errorFlagIsSticky : Obligations.ErrorFlagIsSticky := by
  intro s t h
  cases step_effect h with
  | hardReset u hr htn ht => simp [ht, hr, htn]
  | quiet hr htn hsame =>
    refine ⟨fun he => ?_, fun he => ?_, fun _ _ => ⟨hsame.errCode, hsame.engine, hsame.bytes⟩⟩ <;>
      simp [hsame.err, he, hr, htn]
  | legal w i u hr htn hd hsame hexec =>
    refine ⟨fun he => ?_, fun he => ?_, fun he hte => ?_⟩
    · obtain ⟨herr, -⟩ | ⟨-, herr, -⟩ := exec_error_cases hexec <;> simp [herr, hsame.err, he, htn, hd]
    · simp [exec_held_err_iff hexec (hsame.err.trans he), hr, htn, hd]
    · rw [exec_held_eq hexec (hsame.err.trans he) hte]
      exact ⟨hsame.errCode, hsame.engine, hsame.bytes⟩
  | illegal w c u hr htn hd hsame ht =>
    rw [ht, raiseIllegal_frame]
    refine ⟨fun _ => ?_, fun he => ?_, fun he _ => ?_⟩
    · simp [htn, hd]
    · simp [htn, hd, hr]
    · simp [hsame.engine, hsame.err, hsame.errCode, hsame.bytes, he]

/-- Settles O14: the output handshake moves bytes and loses none, and a command appends to OUTQ. -/
theorem noOutputByteIsLostOrReordered : Obligations.NoOutputByteIsLostOrReordered := by
  intro s t h hnot
  cases step_effect h with
  | hardReset u hr _ _ => exact absurd hr hnot
  | quiet _ htn hsame => exact ⟨[], by simp [hsame.bytes], by simp [htn]⟩
  | legal w i u _ htn hd hsame hexec =>
    obtain ⟨bytes, hq, hlen⟩ := exec_outq hexec hd
    obtain ⟨-, -, htaken, -, -⟩ := exec_frame hexec
    refine ⟨bytes, ?_, ?_⟩
    · rw [htaken, hq, ← List.append_assoc, hsame.bytes]
    · rw [hlen, emittedCount_congr hsame.err, htn]
  | illegal w c u _ htn hd hsame ht =>
    refine ⟨[], ?_, ?_⟩
    · rw [ht, raiseIllegal_frame, List.append_nil]
      exact hsame.bytes
    · simp [htn, emittedCount, hd]

/-- Settles O19, by what the edge transfers. -/
theorem engineChangesOnlyByCommandOrReset : Obligations.EngineChangesOnlyByCommandOrReset := by
  intro s t h hne
  cases step_effect h with
  | hardReset u hr _ _ => exact .inl hr
  | quiet _ _ hsame => exact absurd hsame.engine hne
  | legal w i u _ htn hd hsame hexec =>
    refine .inr ⟨w, i, htn, hd, ?_⟩
    cases he : s.err with
    | false => exact .inl rfl
    | true =>
      obtain rfl | ⟨hi, -⟩ := exec_held hexec (hsame.err.trans he)
      · exact absurd hsame.engine hne
      · exact .inr hi
  | illegal w c u _ _ _ hsame ht =>
    rw [ht, raiseIllegal_frame] at hne
    exact absurd hsame.engine hne

/-! An odd w visits every index -/

/-- n rounds of update advance i by n times w (R100, R108). -/
theorem update_i (n : Nat) (e : Engine) : (update n e).i = e.i + BitVec.ofNat 8 n * e.w := by
  induction n with
  | zero => simp
  | succ n ih =>
    rw [update_succ, updateRound_i, ih, update_w, BitVec.ofNat_add, BitVec.add_mul, BitVec.one_mul, BitVec.add_assoc]

theorem isOdd.coprime_256 {w : Byte} (h : isOdd w) : Nat.Coprime w.toNat 256 := by
  have htwo : Nat.Coprime w.toNat 2 := Nat.coprime_two_right.2 (Nat.odd_iff.2 h)
  exact htwo.pow_right 8

/-- An odd byte has an inverse modulo 256 (R25). -/
theorem isOdd.exists_mul_eq_one {w : Byte} (h : isOdd w) : ∃ v : Byte, v * w = 1 := by
  obtain ⟨m, -, hm⟩ := Nat.exists_mul_mod_eq_one_of_coprime h.coprime_256 (by decide)
  refine ⟨BitVec.ofNat 8 m, BitVec.eq_of_toNat_eq ?_⟩
  rw [BitVec.toNat_mul, BitVec.toNat_ofNat, Nat.mod_mul_mod, Nat.mul_comm]
  exact hm

/-- With w odd, some number of rounds below 256 brings i to any index (R25). -/
theorem exists_update_i_eq {e : Engine} (h : isOdd e.w) (x : Byte) : ∃ n < 256, (update n e).i = x := by
  obtain ⟨v, hv⟩ := h.exists_mul_eq_one
  refine ⟨((x - e.i) * v).toNat, BitVec.isLt _, ?_⟩
  rw [update_i, BitVec.ofNat_toNat, BitVec.setWidth_eq, BitVec.mul_assoc, hv, mul_one, add_sub_cancel]

/-- Settles O26: the moves keep w odd, and an odd w has an inverse modulo 256. -/
theorem oddWVisitsEveryIndex : Obligations.OddWVisitsEveryIndex :=
  ⟨rfl, by decide, fun _ _ hs h => kept_step keptByMoves_oddW rfl h hs,
    fun _ h => ⟨h.coprime_256, exists_update_i_eq h⟩⟩

/-! The count of absorbed nibbles -/

theorem absorbNibble_a (x : Nibble) (e : Engine) : (absorbNibble x e).a = countNibble (makeRoom e).a := rfl
theorem absorbStop_a (e : Engine) : (absorbStop e).a = countNibble (makeRoom e).a := rfl

/-- The room check and the count that follows it: from a full a to 1, else one more (R104, R131). -/
theorem countNibble_makeRoom (e : Engine) :
    (countNibble (makeRoom e).a).val = if e.a.val = 128 then 1 else e.a.val + 1 := by
  rw [countNibble_val (makeRoom_a_le e)]
  split
  · rw [makeRoom_of_full ‹_›, shuffle_a]; rfl
  · rw [makeRoom_of_lt (by omega)]

/-- The count reaches 128 from 127 alone (R28). -/
theorem countNibble_makeRoom_eq_128_iff (e : Engine) : (countNibble (makeRoom e).a).val = 128 ↔ e.a.val = 127 := by
  rw [countNibble_makeRoom]
  split <;> omega

/-- Settles O27: absorb_nibble and absorb_stop count alike. -/
theorem countReaches128OnlyFrom127 : Obligations.CountReaches128OnlyFrom127 := by
  intro e x
  rw [absorbNibble_a, absorbStop_a]
  exact ⟨countNibble_makeRoom e, countNibble_makeRoom e, countNibble_makeRoom_eq_128_iff e,
    countNibble_makeRoom_eq_128_iff e⟩

/-! The reset state and STATUS -/

/-- The fields of a STATUS byte by their places (R32). -/
theorem statusFields (absorbingBit : Bool) (code : BitVec 2) (err busy : Bool) :
    let status : Byte := (0 : BitVec 3) ++ BitVec.ofBool absorbingBit ++ code ++ BitVec.ofBool err ++ BitVec.ofBool busy
    status.getLsbD 0 = busy ∧ status.getLsbD 1 = err ∧ status.extractLsb' 2 2 = code ∧
      status.getLsbD 4 = absorbingBit ∧ status.extractLsb' 5 3 = 0#3 := by
  revert absorbingBit code err busy
  decide

theorem busy_iff {s : State} : busy s = true ↔ s.outq ≠ [] := by simp [busy]

/-- ABSORBING is the phase predicate while BUSY = 0 (R27, R36). -/
theorem absorbingBit_of_idle {s : State} (h : s.outq = []) : absorbingBit s = absorbing s.engine := by
  simp [absorbingBit, busy, h]

theorem absorbing_iff {e : Engine} : absorbing e = true ↔ e.a ≠ 0 := by
  rw [absorbing, decide_eq_true_iff, Nat.pos_iff_ne_zero, Ne, Ne, Fin.ext_iff]
  rfl

/-- STATUS is 0x00 with the engine canonical, no error and no byte waiting (R42). -/
theorem statusByte_canonical {s : State} (he : s.engine = Engine.canonical) (herr : s.err = false)
    (hcode : s.errCode = none) (hq : s.outq = []) : statusByte s = 0x00 := by
  have hbusy : busy s = false := by simp [busy, hq]
  rw [statusByte, absorbingBit_of_idle hq, hbusy, he, herr, hcode]
  rfl

/-- Settles O16: both resets write the canonical engine, no error and no byte. -/
theorem bothResetsGiveTheCanonicalState : Obligations.BothResetsGiveTheCanonicalState :=
  ⟨Memory.read_nil, rfl, rfl, rfl, rfl, rfl, rfl, statusByte_canonical rfl rfl rfl rfl, rfl, rfl, rfl,
    fun _ => ⟨rfl, rfl, rfl, rfl, statusByte_canonical rfl rfl rfl rfl⟩,
    fun s hq => ⟨_, execReset_eq s, rfl, rfl, rfl, hq, statusByte_canonical rfl rfl rfl hq⟩⟩

/-- Settles O17, field by field. -/
theorem statusRegisterLayout : Obligations.StatusRegisterLayout := by
  intro s
  obtain ⟨hbusy, herr, hcode, habsorbing, hzero⟩ :=
    statusFields (absorbingBit s) (errCodeField s.errCode) s.err (busy s)
  refine ⟨?_, herr, ?_, fun hq => ?_, hzero⟩
  · rw [← busy_iff, ← hbusy]; rfl
  · rw [statusByte, hcode]
    cases s.errCode with
    | none => rfl
    | some c => cases c <;> rfl
  · rw [← absorbing_iff, ← absorbingBit_of_idle hq, ← habsorbing]; rfl

end Sys2Proof.Machine
end

section
/-! SUPPORT. The statements of 20_memory.md. -/

namespace Sys2Proof.Machine

/-! Absorbed bytes as a sequence of nibbles -/

/-- The nibbles of a byte sequence in the order they are absorbed, low before high (R105). -/
def nibblesOf (bytes : List Byte) : List Nibble := bytes.flatMap fun b => [lowNibble b, highNibble b]

theorem nibblesOf_length (bytes : List Byte) : (nibblesOf bytes).length = 2 * bytes.length := by
  simp [nibblesOf, Nat.mul_comm]

theorem mem_nibblesOf {x : Nibble} {bytes : List Byte} :
    x ∈ nibblesOf bytes ↔ ∃ b ∈ bytes, x = lowNibble b ∨ x = highNibble b := by
  simp [nibblesOf]

/-- absorb_nibble of each nibble, in sequence order (R104). -/
def absorbNibbles : List Nibble → Engine → Engine
  | [], e => e
  | x :: xs, e => absorbNibbles xs (absorbNibble x e)

/-- Absorbing bytes is absorbing their nibbles (R105). -/
theorem absorbBytes_eq_absorbNibbles (bytes : List Byte) (e : Engine) :
    absorbBytes bytes e = absorbNibbles (nibblesOf bytes) e := by
  induction bytes generalizing e with
  | nil => rfl
  | cons b bs ih => exact ih (absorbByte b e)

/-! What absorbing stores while there is room -/

/-- `f` is what absorbing the nibbles `xs` may make of `e` with no shuffle: the count has gone up by their number,
i, j, k and w have not changed, and mem reads as before outside the positions counted over and the nibble targets
(R51, R104). -/
structure AbsorbFrame (xs : List Nibble) (e f : Engine) : Prop where
  a : f.a.val = e.a.val + xs.length
  i : f.i = e.i
  j : f.j = e.j
  k : f.k = e.k
  w : f.w = e.w
  read : ∀ y : Byte, (y.toNat < e.a.val ∨ e.a.val + xs.length ≤ y.toNat) → (∀ x ∈ xs, y ≠ nibbleIndex x) →
    f.mem.read y = e.mem.read y

/-- An absorb position is its own index: none is reduced modulo 256 (R28). -/
@[simp] theorem absorbIndex_toNat (a : Fin 129) : (absorbIndex a).toNat = a.val := by
  have := a.isLt
  rw [absorbIndex, BitVec.toNat_ofNat, Nat.mod_eq_of_lt (by omega)]

/-- With room, absorb_nibble stores at its position and at its nibble target only (R104). -/
theorem absorbNibble_read_of_ne {e : Engine} (ha : e.a.val < 128) (hwf : e.mem.wf = true) {x : Nibble} {y : Byte}
    (hpos : y ≠ absorbIndex e.a) (hnib : y ≠ nibbleIndex x) : (absorbNibble x e).mem.read y = e.mem.read y := by
  rw [absorbNibble_of_lt x ha, Memory.read_swap hwf, exchanged, if_neg hpos, if_neg hnib]

theorem absorbNibble_a_of_lt {e : Engine} (x : Nibble) (ha : e.a.val < 128) :
    (absorbNibble x e).a.val = e.a.val + 1 := by
  rw [absorbNibble_a, countNibble_makeRoom, if_neg (by omega)]

/-- Absorbing one nibble and then others has the frame of all of them. -/
theorem AbsorbFrame.cons {e f : Engine} {x : Nibble} {xs : List Nibble} (ha : e.a.val < 128) (hwf : e.mem.wf = true)
    (h : AbsorbFrame xs (absorbNibble x e) f) : AbsorbFrame (x :: xs) e f := by
  have hcount := absorbNibble_a_of_lt x ha
  have hfirst := absorbNibble_of_lt x ha
  refine ⟨?_, by rw [h.i, hfirst], by rw [h.j, hfirst], by rw [h.k, hfirst], by rw [h.w, hfirst], fun y hy hne => ?_⟩
  · rw [h.a, hcount, List.length_cons]
    omega
  · rw [List.length_cons] at hy
    obtain ⟨hnib, hrest⟩ := List.forall_mem_cons.1 hne
    have hpos : y ≠ absorbIndex e.a := by
      rintro rfl
      rw [absorbIndex_toNat] at hy
      omega
    rw [h.read y (by omega) hrest, absorbNibble_read_of_ne ha hwf hpos hnib]

/-- Nibbles that all find room are absorbed within their frame (R104). -/
theorem absorbNibbles_frame (xs : List Nibble) {e : Engine} (hwf : e.mem.wf = true)
    (hroom : e.a.val + xs.length ≤ 128) : AbsorbFrame xs e (absorbNibbles xs e) := by
  induction xs generalizing e with
  | nil => exact ⟨rfl, rfl, rfl, rfl, rfl, fun _ _ _ => rfl⟩
  | cons x xs ih =>
    rw [List.length_cons] at hroom
    have ha : e.a.val < 128 := by omega
    refine .cons ha hwf (ih (wf_absorbNibble hwf x) ?_)
    rw [absorbNibble_a_of_lt x ha]
    omega

/-- With ERR = 0, ABSORB and ABSORB_NUMBER absorb their bytes (R130, R132). -/
theorem exec_absorb_engine {i : Instr} {bytes : List Byte} {s t : State} (herr : s.err = false)
    (hi : (∃ b, i = .absorb b ∧ bytes = [b]) ∨ ∃ n, i = .absorbNumber n ∧ bytes = numberBytes n)
    (h : exec i s = .next t) : t.engine = absorbBytes bytes s.engine := by
  obtain ⟨b, rfl, rfl⟩ | ⟨n, rfl, rfl⟩ := hi
  · cases h
    rw [unlessHeld_clear _ _ herr, absorbBytes, absorbBytes]
  · cases h
    rw [unlessHeld_clear _ _ herr]

/-- With room, absorb_stop counts and leaves mem (R131). -/
theorem absorbStop_mem_of_lt {e : Engine} (ha : e.a.val < 128) : (absorbStop e).mem = e.mem := by
  rw [absorbStop, makeRoom_of_lt ha]

/-- ABSORB_STOP with room leaves mem, held or performed (R131, R204). -/
theorem exec_absorbStop_mem {s t : State} (ha : s.engine.a.val < 128) (h : exec .absorbStop s = .next t) :
    t.engine.mem = s.engine.mem := by
  cases h
  exact unlessHeld_engine_of (P := fun e => e.mem = s.engine.mem) rfl (absorbStop_mem_of_lt ha)

/-- Settles O46: the bytes are absorbed nibble by nibble, each storing at its position and its target; the stop stores
nothing. -/
theorem absorbStoresOnlyAtItsPositions : Obligations.AbsorbStoresOnlyAtItsPositions := by
  refine ⟨fun i bytes s t herr hwf hi hroom hexec => ?_, fun s t ha hexec x => by rw [exec_absorbStop_mem ha hexec]⟩
  rw [← nibblesOf_length] at hroom ⊢
  have hframe := absorbNibbles_frame (nibblesOf bytes) hwf hroom
  rw [← absorbBytes_eq_absorbNibbles, ← exec_absorb_engine herr hi hexec] at hframe
  refine ⟨hframe.a, hframe.i, hframe.j, hframe.k, hframe.w, fun x hx hne => hframe.read x hx fun q hq => ?_⟩
  obtain ⟨b, hb, rfl | rfl⟩ := mem_nibblesOf.1 hq
  · exact (hne b hb).1
  · exact (hne b hb).2

end Sys2Proof.Machine
end

section
/-! SUPPORT. The command word of 30_encoding.md: what the opcode map, the argument and a whole word decode to, and the
rows of the opcode table by their fields (R75 to R78, R82). -/

namespace Sys2Proof

/-! The opcode map and the argument's bytes -/

/-- The opcode map read and the opcode map written are inverse (R76). -/
theorem opcodeOf_eq_some_iff {b : Byte} {op : Opcode} : opcodeOf b = some op ↔ b = op.value := by
  revert b
  cases op <;> decide

/-- The opcodes outside the table are those outside 0x01..0x06 (R76). -/
theorem opcodeOf_eq_none_iff {b : Byte} :
    opcodeOf b = none ↔ b ∉ [0x01#8, 0x02#8, 0x03#8, 0x04#8, 0x05#8, 0x06#8] := by
  revert b
  decide

theorem argAboveByte_append_argByte (arg : Arg) : argAboveByte arg ++ argByte arg = arg :=
  BitVec.extractLsb'_append_extractLsb' (w := 24) (len := 8)

/-- An argument with nothing above its low byte is that byte (R77). -/
theorem setWidth_argByte {arg : Arg} (h : argAboveByte arg = 0#24) : (argByte arg).setWidth 32 = arg := by
  rw [BitVec.setWidth_eq_append (by decide), ← h]
  exact argAboveByte_append_argByte arg

/-- `arg[31:8]` and `arg[7:0]` as bits of the word (R75). -/
theorem argAboveByte_argField (w : CmdWord) : argAboveByte (argField w) = w.extractLsb' 8 24 :=
  BitVec.extractLsb'_extractLsb'_of_le (by decide)
theorem argByte_argField (w : CmdWord) : argByte (argField w) = w.extractLsb' 0 8 :=
  BitVec.extractLsb'_extractLsb'_of_le (by decide)

/-! What the argument decodes to -/

/-- The argument of a well-formed command is read back (R77). -/
theorem decodeArg_argument {i : Instr} (hi : i.wellFormed = true) : decodeArg i.opcode i.argument = .legal i := by
  cases i with
  | reset => rfl
  | absorbStop => rfl
  | absorb b | squeezeXor b =>
    obtain ⟨hbyte, habove⟩ := Laws.byte_argument b
    simp [decodeArg, Instr.opcode, Instr.argument, hbyte, habove]
  | absorbNumber n | squeeze n =>
    have hn : (BitVec.ofNat 32 n).toNat = n := Nat.mod_eq_of_lt (of_decide_eq_true hi)
    simp only [decodeArg, Instr.opcode, Instr.argument, hn]

/-- A verdict with one condition is legal exactly when the condition holds (R78). -/
theorem legal_if_eq_iff {c : Prop} [Decidable c] {code : IllegalCode} {i j : Instr} :
    (if c then Verdict.legal j else .illegal code) = .legal i ↔ c ∧ j = i := by
  split <;> simp [*]

/-- An argument that decodes is the argument of the command it decodes to (R77). -/
theorem of_decodeArg_legal {op : Opcode} {arg : Arg} {i : Instr} (h : decodeArg op arg = .legal i) :
    i.wellFormed = true ∧ i.opcode = op ∧ i.argument = arg := by
  cases op with
  | reset | absorbStop =>
    obtain ⟨harg, rfl⟩ := legal_if_eq_iff.1 h
    exact ⟨rfl, rfl, harg.symm⟩
  | absorb | squeezeXor =>
    obtain ⟨habove, rfl⟩ := legal_if_eq_iff.1 h
    exact ⟨rfl, rfl, setWidth_argByte habove⟩
  | absorbNumber | squeeze =>
    cases h
    exact ⟨decide_eq_true arg.isLt, rfl, BitVec.ofNat_toNat 32 arg⟩

/-! What a word decodes to -/

/-- A word with a defined opcode and zero reserved bits is its opcode's argument decoded (R78). -/
theorem decode_of_fields {w : CmdWord} {op : Opcode} (hop : opField w = op.value) (hrsv : rsvField w = 0#24) :
    decode w = decodeArg op (argField w) := by
  simp [decode, opcodeOf_eq_some_iff.2 hop, hrsv]

theorem decode_of_undefined {w : CmdWord} (h : opcodeOf (opField w) = none) : decode w = .illegal .illegalOpcode := by
  simp [decode, h]

/-- A defined opcode with a reserved bit set (R78, R203). -/
theorem decode_of_reserved {w : CmdWord} {op : Opcode} (hop : opField w = op.value) (hrsv : rsvField w ≠ 0#24) :
    decode w = .illegal .reservedBits := by
  simp [decode, opcodeOf_eq_some_iff.2 hop, hrsv]

/-- A legal word has a defined opcode, zero reserved bits and an argument that decodes (R78). -/
theorem decode_eq_legal_iff {w : CmdWord} {i : Instr} :
    decode w = .legal i ↔
      ∃ op : Opcode, opField w = op.value ∧ rsvField w = 0#24 ∧ decodeArg op (argField w) = .legal i := by
  constructor
  · intro h
    cases hop : opcodeOf (opField w) with
    | none => simp [decode_of_undefined hop] at h
    | some op =>
      rw [opcodeOf_eq_some_iff] at hop
      by_cases hrsv : rsvField w = 0#24
      · exact ⟨op, hop, hrsv, decode_of_fields hop hrsv ▸ h⟩
      · simp [decode_of_reserved hop hrsv] at h
  · rintro ⟨op, hop, hrsv, harg⟩
    rw [decode_of_fields hop hrsv, harg]

/-! The rows of the opcode table -/

/-- The bits of the argument that must be zero (R77). -/
def Opcode.zeroBits : Opcode → Arg
  | .reset => 0xFFFFFFFF#32
  | .absorb => 0xFFFFFF00#32
  | .absorbStop => 0xFFFFFFFF#32
  | .absorbNumber => 0#32
  | .squeeze => 0#32
  | .squeezeXor => 0xFFFFFF00#32

/-- The mask of an opcode's row: the opcode, the reserved bits, and the argument's must-be-zero bits (R78). -/
def Opcode.mask (op : Opcode) : CmdWord := 0xFF#8 ++ 0xFFFFFF#24 ++ op.zeroBits

theorem mask_fields (op : Opcode) :
    opField op.mask = 0xFF#8 ∧ rsvField op.mask = 0xFFFFFF#24 ∧ argField op.mask = op.zeroBits :=
  Laws.fields_of_append _ _ _

/-- Each opcode has its row in the table (R78). -/
theorem exists_row (op : Opcode) : ∃ r ∈ opcodeTable, r.mask = op.mask ∧ r.value = formatC op 0#32 := by
  cases op <;> decide

/-- Each row of the table is an opcode's (R78). -/
theorem exists_opcode_of_row {r : TableRow} (hr : r ∈ opcodeTable) :
    ∃ op : Opcode, r.mask = op.mask ∧ r.value = formatC op 0#32 := by
  simp only [opcodeTable, List.mem_cons, List.not_mem_nil, or_false] at hr
  obtain rfl | rfl | rfl | rfl | rfl | rfl := hr
  exacts [⟨.reset, by decide⟩, ⟨.absorb, by decide⟩, ⟨.absorbStop, by decide⟩, ⟨.absorbNumber, by decide⟩,
    ⟨.squeeze, by decide⟩, ⟨.squeezeXor, by decide⟩]

/-- Two words are equal exactly when their fields are (R75). -/
theorem word_eq_iff {w w' : CmdWord} :
    w = w' ↔ opField w = opField w' ∧ rsvField w = rsvField w' ∧ argField w = argField w' := by
  constructor
  · rintro rfl
    exact ⟨rfl, rfl, rfl⟩
  · rintro ⟨hop, hrsv, harg⟩
    rw [← Laws.word_of_fields w, hop, hrsv, harg, Laws.word_of_fields]

/-- A word matches an opcode's row exactly when it has the opcode and each must-be-zero bit is zero (R78). -/
theorem and_mask_eq_iff {w : CmdWord} {op : Opcode} :
    w &&& op.mask = formatC op 0#32 ↔
      opField w = op.value ∧ rsvField w = 0#24 ∧ argField w &&& op.zeroBits = 0#32 := by
  obtain ⟨hop, hrsv, harg⟩ := Laws.formatC_fields op 0#32
  obtain ⟨mop, mrsv, marg⟩ := mask_fields op
  have fop : opField (w &&& op.mask) = opField w := by
    rw [opField, BitVec.extractLsb'_and, ← opField, ← opField, mop]
    exact BitVec.and_allOnes
  have frsv : rsvField (w &&& op.mask) = rsvField w := by
    rw [rsvField, BitVec.extractLsb'_and, ← rsvField, ← rsvField, mrsv]
    exact BitVec.and_allOnes
  have farg : argField (w &&& op.mask) = argField w &&& op.zeroBits := by
    rw [argField, BitVec.extractLsb'_and, ← argField, ← argField, marg]
  rw [word_eq_iff, fop, frsv, farg, hop, hrsv, harg]

theorem and_aboveByte_eq_zero_iff {arg : Arg} : arg &&& 0xFFFFFF00#32 = 0#32 ↔ argAboveByte arg = 0#24 := by
  have habove : argAboveByte arg &&& 0xFFFFFF#24 = argAboveByte arg := BitVec.and_allOnes
  have hand : arg &&& 0xFFFFFF00#32 = argAboveByte arg ++ 0#8 := by
    conv_lhs => rw [← argAboveByte_append_argByte arg]
    rw [show 0xFFFFFF00#32 = 0xFFFFFF#24 ++ 0#8 from rfl, BitVec.and_append, habove, BitVec.and_zero]
  rw [hand, show 0#32 = 0#24 ++ 0#8 from rfl, BitVec.append_left_inj]

/-- An argument decodes exactly when its must-be-zero bits are zero (R77). -/
theorem exists_decodeArg_iff {op : Opcode} {arg : Arg} :
    (∃ i, decodeArg op arg = .legal i) ↔ arg &&& op.zeroBits = 0#32 := by
  have hall : arg &&& 0xFFFFFFFF#32 = arg := BitVec.and_allOnes
  cases op with
  | reset | absorbStop => simp [decodeArg, legal_if_eq_iff, Opcode.zeroBits, hall]
  | absorb | squeezeXor => simp [decodeArg, legal_if_eq_iff, Opcode.zeroBits, and_aboveByte_eq_zero_iff]
  | absorbNumber | squeeze => simp [decodeArg, Opcode.zeroBits]

/-! A word in format C -/

/-- A word in format C is its opcode's word with the argument in the low bits (R75, R82). -/
theorem formatC_eq_or (op : Opcode) (arg : Arg) : formatC op arg = formatC op 0#32 ||| arg.setWidth 64 := by
  have hhigh : (op.value ++ 0#24 ++ 0#32) ||| (0#32 ++ arg) = op.value ++ 0#24 ++ arg := by
    rw [BitVec.or_append, BitVec.or_zero, BitVec.zero_or]
  rw [BitVec.setWidth_eq_append (by decide)]
  exact hhigh.symm

/-- The word of a command with a u8 operand (R82). -/
theorem formatC_byte (op : Opcode) (b : Byte) :
    formatC op (b.setWidth 32) = formatC op 0#32 ||| b.zeroExtend 64 := by
  rw [formatC_eq_or, BitVec.setWidth_setWidth (by decide)]

/-- The word of a command with a number that fits its argument (R82). -/
theorem formatC_number (op : Opcode) {n : Nat} (hn : n < 2 ^ 32) :
    formatC op (BitVec.ofNat 32 n) = formatC op 0#32 ||| BitVec.ofNat 64 n := by
  rw [formatC_eq_or]
  congr 1
  apply BitVec.eq_of_toNat_eq
  rw [BitVec.toNat_setWidth, BitVec.toNat_ofNat, BitVec.toNat_ofNat, Nat.mod_eq_of_lt hn]

/-! The statements about the word -/

/-- Settles O1: the opcode and the argument of a command's word are read back. -/
theorem encodedWordDecodesToItsCommand : Obligations.EncodedWordDecodesToItsCommand := by
  intro i hi
  obtain ⟨hop, hrsv, harg⟩ := Laws.formatC_fields i.opcode i.argument
  exact decode_eq_legal_iff.2 ⟨i.opcode, hop, hrsv, by rw [encode, harg, decodeArg_argument hi]⟩

/-- Settles O2: a legal word has the three fields that its command's word has. -/
theorem legalWordIsItsCommandsEncoding : Obligations.LegalWordIsItsCommandsEncoding := by
  intro w i h
  obtain ⟨op, hop, hrsv, hdecode⟩ := decode_eq_legal_iff.1 h
  obtain ⟨hwf, rfl, harg⟩ := of_decodeArg_legal hdecode
  obtain ⟨fop, frsv, farg⟩ := Laws.formatC_fields i.opcode i.argument
  exact ⟨hwf, word_eq_iff.2 ⟨fop.trans hop.symm, frsv.trans hrsv.symm, farg.trans harg⟩⟩

/-- A word is legal exactly when it matches the row of its opcode (R78). -/
theorem exists_decode_legal_iff_row (w : CmdWord) :
    (∃ i, decode w = .legal i) ↔
      ∃ r ∈ opcodeTable, r.value.extractLsb' 56 8 = w.extractLsb' 56 8 ∧ w &&& r.mask = r.value := by
  have hlegal : (∃ i, decode w = .legal i) ↔ ∃ op : Opcode, w &&& op.mask = formatC op 0#32 := by
    simp only [decode_eq_legal_iff, and_mask_eq_iff, ← exists_decodeArg_iff]
    constructor
    · rintro ⟨i, op, hop, hrsv, harg⟩
      exact ⟨op, hop, hrsv, i, harg⟩
    · rintro ⟨op, hop, hrsv, i, harg⟩
      exact ⟨i, op, hop, hrsv, harg⟩
  rw [hlegal]
  constructor
  · rintro ⟨op, hmatch⟩
    obtain ⟨r, hr, hmask, hvalue⟩ := exists_row op
    obtain ⟨hop, -, -⟩ := and_mask_eq_iff.1 hmatch
    refine ⟨r, hr, ?_, by rw [hmask, hvalue, hmatch]⟩
    rw [hvalue]
    exact (Laws.formatC_fields op 0#32).1.trans hop.symm
  · rintro ⟨r, hr, -, hmatch⟩
    obtain ⟨op, hmask, hvalue⟩ := exists_opcode_of_row hr
    exact ⟨op, by rw [← hmask, ← hvalue, hmatch]⟩

/-- Settles O3: the opcode, the reserved bits and the argument in turn, then the rows of the table. -/
theorem decodeFollowsItsPseudocode : Obligations.DecodeFollowsItsPseudocode := by
  intro w
  refine ⟨fun hop => decode_of_undefined (opcodeOf_eq_none_iff.2 hop), fun hop hrsv => ?_, fun hrsv => ?_,
    exists_decode_legal_iff_row w⟩
  · obtain ⟨op, hop⟩ := Option.ne_none_iff_exists'.1 (mt opcodeOf_eq_none_iff.1 (not_not.2 hop))
    exact decode_of_reserved (opcodeOf_eq_some_iff.1 hop) hrsv
  · have hcase (op : Opcode) (hop : w.extractLsb' 56 8 = op.value) : decode w = decodeArg op (argField w) :=
      decode_of_fields hop hrsv
    rw [← argAboveByte_argField, ← argByte_argField]
    simp only [ne_eq, ite_not]
    exact ⟨hcase .reset, hcase .absorb, hcase .absorbStop, hcase .absorbNumber, hcase .squeeze, hcase .squeezeXor⟩

/-- Settles O4: each form in format C is the opcode's word with the operand in its low bits. -/
theorem eachFormEncodesAsSpelled : Obligations.EachFormEncodesAsSpelled :=
  ⟨by decide, formatC_byte .absorb, by decide, fun _ => formatC_number .absorbNumber, fun _ => formatC_number .squeeze,
    formatC_byte .squeezeXor, by decide, by decide, by decide, by decide⟩

/-- Settles O5: the decoder run on each word. -/
theorem specWordsDecode : Obligations.SpecWordsDecode := by
  unfold Obligations.SpecWordsDecode
  decide

end Sys2Proof
end

section
/-! SUPPORT. The ports of 30_encoding.md: what an edge with no reset and an unbroken offer does, and what a STATUS read
adds to it (R70 to R73). -/

namespace Sys2Proof.Machine

/-! An edge with no reset -/

/-- An offer is unbroken when no word is held, or the held one is still driven (R70). -/
theorem offerBroken_eq_false_iff {cmd : Option CmdWord} {s : State} :
    offerBroken cmd s = false ↔ s.offered = none ∨ s.offered = cmd := by
  cases h : s.offered with
  | none => simp [offerBroken, h]
  | some w => simp [offerBroken, h, eq_comm (a := cmd)]

/-- With no reset and an unbroken offer, the step is the two handshakes (R70, R72). -/
theorem step_eq_handshakes {s : State} {d : HostDrive} {rest : List HostDrive} (hh : s.host = d :: rest)
    (hr : d.rstN = true) (ho : s.offered = none ∨ s.offered = d.cmd) :
    step s = handshakes d (beginEdge d rest s) := by
  have hunbroken : offerBroken d.cmd (beginEdge d rest s) = false := by
    rwa [offerBroken_eq_false_iff, beginEdge_offered]
  simp [step, stepEdge, hh, edge, hr, hunbroken]

/-- A step that is not refused found its offer unbroken (R70, U9). -/
theorem offer_unbroken_of_step {s t : State} {d : HostDrive} {rest : List HostDrive} (hh : s.host = d :: rest)
    (hr : d.rstN = true) (h : step s = .next t) : s.offered = none ∨ s.offered = d.cmd := by
  obtain ⟨hnil, -⟩ | ⟨_, _, hh', ⟨hreset, -⟩ | ⟨-, ho, -⟩⟩ := step_cases h
  · simp [hh] at hnil
  · obtain ⟨rfl, rfl⟩ := List.cons.inj (hh.symm.trans hh')
    simp [hr] at hreset
  · obtain ⟨rfl, rfl⟩ := List.cons.inj (hh.symm.trans hh')
    exact offerBroken_eq_false_iff.1 ho

/-- `cmd_ready` is 1 exactly when no reset is asserted and OUTQ is empty (R71). -/
theorem cmdReady_iff {rstN : Bool} {s : State} : cmdReady rstN s = true ↔ rstN = true ∧ s.outq = [] := by
  simp [cmdReady, busy]

/-- A ready engine accepts the word on the command port (R70, R71). -/
theorem handshakes_ready {d : HostDrive} {s : State} {w : CmdWord} (hw : d.cmd = some w) (hr : d.rstN = true)
    (hq : s.outq = []) : handshakes d s = accept w { s with offered := none } := by
  simp [handshakes, hw, cmdReady_iff.2 ⟨hr, hq⟩]

/-- A busy engine has the output handshake alone, with the word on the command port held (R70 to R72). -/
theorem handshakes_busy {d : HostDrive} {s : State} (hq : s.outq ≠ []) :
    ∃ offered, handshakes d s = .next (transferOutput d.outReady { s with offered := offered }) ∧
      ∀ w, d.cmd = some w → offered = some w := by
  cases hw : d.cmd with
  | none => exact ⟨s.offered, by simp [handshakes, hw], by simp⟩
  | some w => exact ⟨some w, by simp [handshakes, hw, cmdReady_iff, hq], by simp⟩

theorem accept_legal {w : CmdWord} {i : Instr} (hd : decode w = .legal i) (s : State) : accept w s = exec i s := by
  simp [accept, hd]

/-- Accepting a word gives the host no byte (R201). -/
theorem accept_taken {w : CmdWord} {s t : State} (h : accept w s = .next t) : t.taken = s.taken := by
  obtain ⟨i, -, hexec⟩ | ⟨c, -, rfl⟩ := accept_cases h
  · obtain ⟨-, -, htaken, -, -⟩ := exec_frame hexec
    exact htaken
  · rw [raiseIllegal_frame]

/-! The output handshake -/

/-- A ready host takes the head of OUTQ (R72). -/
theorem transferOutput_ready {s : State} {b : Byte} {q : List Byte} (hq : s.outq = b :: q) :
    transferOutput true s = { s with outq := q, taken := s.taken ++ [b] } := by
  simp [transferOutput, hq]

theorem transferOutput_not_ready (s : State) : transferOutput false s = s := rfl

theorem transferOutput_empty (r : Bool) {s : State} (hq : s.outq = []) : transferOutput r s = s := by
  cases r <;> simp [transferOutput, hq]

/-! A STATUS read -/

/-- What a STATUS read adds to the state: the value read, and one draw of the free bit (log 3, log 14). -/
def recordRead (v : Byte) (s : State) : State :=
  { s with statusReads := s.statusReads ++ [v], statusDraws := s.statusDraws + 1 }

theorem unlessHeld_recordRead (v : Byte) (s t : State) :
    unlessHeld (recordRead v s) (recordRead v t) = recordRead v (unlessHeld s t) := by
  cases h : s.err <;> simp [unlessHeld, recordRead, h]

theorem drips_recordRead (v : Byte) (n : Nat) (s : State) : drips n (recordRead v s) = recordRead v (drips n s) := by
  rw [drips_eq, drips_eq]
  rfl

/-- No command uses what the host has read (R73). -/
theorem exec_recordRead (v : Byte) {i : Instr} {s t : State} (h : exec i s = .next t) :
    exec i (recordRead v s) = .next (recordRead v t) := by
  cases i with
  | reset => cases h; rfl
  | absorb _ | absorbStop | absorbNumber _ | squeezeXor _ =>
    cases h
    rw [← unlessHeld_recordRead]
    rfl
  | squeeze n =>
    cases h
    rw [← unlessHeld_recordRead, ← drips_recordRead]
    rfl

theorem accept_recordRead (v : Byte) {w : CmdWord} {s t : State} (h : accept w s = .next t) :
    accept w (recordRead v s) = .next (recordRead v t) := by
  obtain ⟨i, hd, hexec⟩ | ⟨c, hd, rfl⟩ := accept_cases h
  · rw [accept_legal hd, exec_recordRead v hexec]
  · simp only [accept, hd, raiseIllegal_frame]
    rfl

theorem transferOutput_recordRead (v : Byte) (r : Bool) (s : State) :
    transferOutput r (recordRead v s) = recordRead v (transferOutput r s) := by
  cases r with
  | false => rfl
  | true =>
    cases hq : s.outq with
    | nil => rw [transferOutput_empty true hq, transferOutput_empty true (s := recordRead v s) hq]
    | cons b q => rw [transferOutput_ready hq, transferOutput_ready (s := recordRead v s) hq]; rfl

theorem handshakes_recordRead (v : Byte) {d : HostDrive} {s t : State} (h : handshakes d s = .next t) :
    handshakes d (recordRead v s) = .next (recordRead v t) := by
  cases hw : d.cmd with
  | none =>
    simp only [handshakes, hw] at h ⊢
    cases h
    rw [transferOutput_recordRead]
  | some w =>
    simp only [handshakes, hw] at h ⊢
    split at h
    next hready => exact (if_pos hready).trans (accept_recordRead v h)
    next hready =>
      cases h
      have htransfer := transferOutput_recordRead v d.outReady { s with offered := some w }
      exact (if_neg hready).trans (congrArg Host.Outcome.next htransfer)

/-- No edge uses what the host has read (R73). -/
theorem edge_recordRead (v : Byte) {d : HostDrive} {s t : State} (h : edge d s = .next t) :
    edge d (recordRead v s) = .next (recordRead v t) := by
  unfold edge at h ⊢
  split at h
  next hr => cases h; exact if_pos hr
  next hr =>
    split at h
    next => cases h
    next ho => exact (if_neg hr).trans ((if_neg ho).trans (handshakes_recordRead v h))

/-! The statements about the ports -/

/-- Settles O18: the edge with a read begins in the same state with the read recorded, and no edge uses that record. -/
theorem statusReadHasNoSideEffect : Obligations.StatusReadHasNoSideEffect :=
  fun s _ _ _ h => edge_recordRead (statusByte s) h

/-- Settles O12: a busy engine has the output handshake alone, which loses no byte. -/
theorem busyEngineAcceptsNoWord : Obligations.BusyEngineAcceptsNoWord := by
  refine ⟨fun rstN s => cmdReady_iff, fun s t d rest hh hr hq h => ?_⟩
  obtain ⟨offered, hedge, hheld⟩ := handshakes_busy (d := d) (s := beginEdge d rest s) (by simpa using hq)
  rw [step_eq_handshakes hh hr (offer_unbroken_of_step hh hr h), hedge] at h
  cases h
  have hsame := (sameMachine_beginEdge d rest offered s).transferOutput d.outReady
  exact ⟨hsame.engine, hsame.err, hsame.errCode, hsame.bytes, fun w hw => by rw [transferOutput_offered, hheld w hw]⟩

/-- Settles O7: an idle engine accepts the offered word, in the state the edge begins in. -/
theorem stepPerformsTheTransferredCommand : Obligations.StepPerformsTheTransferredCommand := by
  intro s d rest w i hh hr hw hq ho hd
  rw [← hw] at ho
  rw [step_eq_handshakes hh hr ho, handshakes_ready hw hr (by rwa [beginEdge_outq]), accept_legal hd]
  cases hread : d.readStatus <;> simp [beginEdge, hread, sampleStatus]

/-- Settles O13: a busy engine has the output handshake alone, and no other edge gives the host a byte. -/
theorem outputTransferTakesTheHead : Obligations.OutputTransferTakesTheHead := by
  refine ⟨fun s => by simp [outValid], fun s d rest b q hh hr hq ho => ⟨by simp [outData, hq], ?_⟩, fun s t h hq => ?_⟩
  · obtain ⟨offered, hedge, -⟩ := handshakes_busy (d := d) (s := beginEdge d rest s) (by simp [hq])
    refine ⟨_, (step_eq_handshakes hh hr ho).trans hedge, by simp, by simp, fun hready => ?_, fun hready => ?_⟩
    · rw [hready, transferOutput_ready (by simpa using hq)]
      simp
    · rw [hready, transferOutput_not_ready]
      simp
  · obtain ⟨-, rfl⟩ | ⟨d, rest, -, hedge⟩ := step_cases h
    · rfl
    · obtain ⟨-, rfl⟩ | ⟨-, -, ⟨-, rfl⟩ | ⟨w, -, -, hacc⟩ | ⟨w, -, hbusy, -⟩⟩ := hedge
      · simp
      · rw [transferOutput_empty _ (by simpa using hq), beginEdge_taken]
      · simpa using accept_taken hacc
      · exact absurd hq hbusy

end Sys2Proof.Machine
end

section
/-! SUPPORT. The assembler of 30_encoding.md: the texts that read as numbers, what comment stripping, blank trimming and
the operand list make of them, and the words of each mnemonic (R81 to R83). -/

namespace Sys2Proof.Machine

/-! The texts that read as numbers -/

/-- A character that no part of the assembler treats as a mark: no comment, quote, comma or blank. -/
def isPlain (c : Char) : Bool := c ∉ [';', '"', '\'', ',', ' ', '\t']

theorem isPlain_iff {c : Char} :
    isPlain c = true ↔ c ≠ ';' ∧ c ≠ '"' ∧ c ≠ '\'' ∧ c ≠ ',' ∧ c ≠ ' ' ∧ c ≠ '\t' := by
  simp [isPlain]

/-- The two forms of a text that reads as a number (R81). -/
inductive OperandText : List Char → Prop
  | plain (c : Char) (cs : List Char) (h : ∀ d ∈ c :: cs, isPlain d = true) : OperandText (c :: cs)
  | literal (c : Char) : OperandText ['\'', c, '\'']

/-- A digit is no mark (R81). -/
theorem isPlain_of_digitValue {base v : Nat} {c : Char} (h : digitValue base c = some v) : isPlain c = true := by
  rw [isPlain_iff]
  refine ⟨?_, ?_, ?_, ?_, ?_, ?_⟩ <;> rintro rfl <;> simp [digitValue] at h

/-- A run of digits holds no mark (R81). -/
theorem isPlain_of_digitsValue {base acc n : Nat} {cs : List Char} (h : digitsValue base acc cs = some n) :
    ∀ c ∈ cs, isPlain c = true := by
  induction cs generalizing acc with
  | nil => simp
  | cons c cs ih =>
    rw [digitsValue] at h
    split at h
    next v hv => exact List.forall_mem_cons.2 ⟨isPlain_of_digitValue hv, ih h⟩
    next => cases h

theorem isPlain_of_parseDigits {base n : Nat} {cs : List Char} (h : parseDigits base cs = some n) :
    ∀ c ∈ cs, isPlain c = true := by
  cases cs with
  | nil => simp
  | cons c cs => exact isPlain_of_digitsValue h

/-- A text that reads as a number has one of the two forms (R81). -/
theorem operandText_of_parseNumber {text : List Char} {n : Nat} (h : parseNumber text = some n) : OperandText text := by
  cases text with
  | nil => cases h
  | cons c rest =>
    rw [parseNumber] at h
    split at h
    next hquote =>
      subst hquote
      unfold parseChar at h
      split at h
      next d quote =>
        split at h
        next hclose => subst hclose; exact .literal d
        next => cases h
      next => cases h
    next =>
      split at h
      next hhex =>
        obtain ⟨rfl, hx⟩ := hhex
        obtain ⟨digits, rfl⟩ := List.head?_eq_some_iff.1 hx
        refine .plain _ _ (List.forall_mem_cons.2 ⟨by decide, List.forall_mem_cons.2 ⟨by decide, ?_⟩⟩)
        exact isPlain_of_parseDigits h
      next => exact .plain c rest (isPlain_of_parseDigits h)

theorem operandText_of_operands {operands : List (List Char × Nat)}
    (h : ∀ o ∈ operands, parseNumber o.1 = some o.2) : ∀ t ∈ operands.map Prod.fst, OperandText t :=
  List.forall_mem_map.2 fun o ho => operandText_of_parseNumber (h o ho)

/-! Comments -/

theorem stripComment_cons {c : Char} (cs : List Char) (hsemi : c ≠ ';') (hstring : c ≠ '"') (hquote : c ≠ '\'') :
    stripComment false (c :: cs) = c :: stripComment false cs := by
  rcases cs with _ | ⟨x, _ | ⟨y, rest⟩⟩ <;> simp [stripComment, hsemi, hstring, hquote]

theorem stripComment_literal (c : Char) (rest : List Char) :
    stripComment false ('\'' :: c :: '\'' :: rest) = '\'' :: c :: '\'' :: stripComment false rest := by
  simp [stripComment]

theorem stripComment_inString (c : Char) (cs : List Char) :
    stripComment true (c :: cs) = c :: stripComment (c != '"') cs := by
  rcases cs with _ | ⟨x, _ | ⟨y, rest⟩⟩ <;> simp [stripComment]

theorem stripComment_open (cs : List Char) : stripComment false ('"' :: cs) = '"' :: stripComment true cs := by
  rcases cs with _ | ⟨x, _ | ⟨y, rest⟩⟩ <;> simp [stripComment]

/-- No character before the closing quote of a string starts a comment (R81). -/
theorem stripComment_string {chars : List Char} (h : ∀ c ∈ chars, c ≠ '"') (rest : List Char) :
    stripComment true (chars ++ '"' :: rest) = chars ++ '"' :: stripComment false rest := by
  induction chars with
  | nil => rw [List.nil_append, stripComment_inString]; rfl
  | cons c cs ih =>
    obtain ⟨hc, hcs⟩ := List.forall_mem_cons.1 h
    rw [List.cons_append, stripComment_inString, bne_iff_ne.2 hc, ih hcs, List.cons_append]

/-- A text no comment starts in, whatever follows it. -/
def NoComment (text : List Char) : Prop := ∀ rest, stripComment false (text ++ rest) = text ++ stripComment false rest

theorem NoComment.append {a b : List Char} (ha : NoComment a) (hb : NoComment b) : NoComment (a ++ b) := fun rest => by
  rw [List.append_assoc, ha, hb, List.append_assoc]

theorem noComment_of_unmarked {text : List Char} (h : ∀ c ∈ text, c ≠ ';' ∧ c ≠ '"' ∧ c ≠ '\'') : NoComment text := by
  intro rest
  induction text with
  | nil => rfl
  | cons c cs ih =>
    obtain ⟨⟨hsemi, hstring, hquote⟩, hcs⟩ := List.forall_mem_cons.1 h
    rw [List.cons_append, stripComment_cons _ hsemi hstring hquote, ih hcs, List.cons_append]

theorem noComment_of_plain {text : List Char} (h : ∀ c ∈ text, isPlain c = true) : NoComment text :=
  noComment_of_unmarked fun c hc => by
    obtain ⟨hsemi, hstring, hquote, -⟩ := isPlain_iff.1 (h c hc)
    exact ⟨hsemi, hstring, hquote⟩

theorem OperandText.noComment {text : List Char} (h : OperandText text) : NoComment text := by
  cases h with
  | plain c cs h => exact noComment_of_plain h
  | literal c => exact stripComment_literal c

theorem noComment_string {chars : List Char} (h : ∀ c ∈ chars, c ≠ '"') : NoComment ('"' :: chars ++ ['"']) := by
  intro rest
  simp [stripComment_open, stripComment_string h]

/-! Blanks -/

theorem isBlank_of_plain {c : Char} (h : isPlain c = true) : isBlank c = false := by
  obtain ⟨-, -, -, -, hspace, htab⟩ := isPlain_iff.1 h
  simp [isBlank, hspace, htab]

/-- The last character of the text is no blank. -/
def EndsSolid (text : List Char) : Prop := ∃ c, text.getLast? = some c ∧ isBlank c = false

theorem EndsSolid.append_left {b : List Char} (hb : EndsSolid b) (a : List Char) : EndsSolid (a ++ b) := by
  obtain ⟨c, hlast, hc⟩ := hb
  exact ⟨c, by simp [List.getLast?_append, hlast], hc⟩

theorem OperandText.endsSolid {text : List Char} (h : OperandText text) : EndsSolid text := by
  cases h with
  | plain c cs h => exact ⟨_, List.getLast?_eq_some_getLast (by simp), isBlank_of_plain (h _ (List.getLast_mem _))⟩
  | literal c => exact ⟨'\'', rfl, rfl⟩

theorem dropBlanks_cons {c : Char} (hc : isBlank c = false) (cs : List Char) : dropBlanks (c :: cs) = c :: cs := by
  simp [dropBlanks, hc]

/-- A text that begins and ends with no blank is not trimmed. -/
theorem trimBlanks_eq_self {c : Char} {cs : List Char} (hc : isBlank c = false) (hend : EndsSolid (c :: cs)) :
    trimBlanks (c :: cs) = c :: cs := by
  obtain ⟨d, hlast, hd⟩ := hend
  rw [List.getLast?_eq_head?_reverse] at hlast
  obtain ⟨ds, hreverse⟩ := List.head?_eq_some_iff.1 hlast
  rw [trimBlanks, dropBlanks_cons hc, hreverse, dropBlanks_cons hd, ← hreverse, List.reverse_reverse]

/-- A text that reads as a number begins with no blank and no double quote. -/
theorem OperandText.exists_cons {text : List Char} (h : OperandText text) :
    ∃ c cs, text = c :: cs ∧ isBlank c = false ∧ c ≠ '"' := by
  cases h with
  | plain c cs h =>
    have hc := h c List.mem_cons_self
    obtain ⟨-, hstring, -⟩ := isPlain_iff.1 hc
    exact ⟨c, cs, rfl, isBlank_of_plain hc, hstring⟩
  | literal c => exact ⟨'\'', _, rfl, rfl, by decide⟩

theorem OperandText.trimBlanks_eq {text : List Char} (h : OperandText text) : trimBlanks text = text := by
  obtain ⟨c, cs, rfl, hc, -⟩ := h.exists_cons
  exact trimBlanks_eq_self hc h.endsSolid

/-! A line with an operand -/

theorem splitMnemonic_append {m : List Char} (hm : ∀ c ∈ m, c ≠ ' ') (part operand : List Char) :
    splitMnemonic part (m ++ ' ' :: operand) = (part.reverse ++ m, some operand) := by
  induction m generalizing part with
  | nil => simp [splitMnemonic]
  | cons c cs ih =>
    obtain ⟨hc, hcs⟩ := List.forall_mem_cons.1 hm
    simp [splitMnemonic, hc, ih hcs]

/-- A mnemonic as the assembler's lines have it: not empty, and without marks. -/
def isMnemonic (m : List Char) : Bool := !m.isEmpty && m.all isPlain

/-- A mnemonic, a space and an operand without comment and closing blank are read as such (R81). -/
theorem assembleLine_append {start m operand : List Char} (hstart : start = m ++ [' ']) (hm : isMnemonic m = true)
    (hcomment : NoComment operand) (hend : EndsSolid operand) :
    assembleLine (start ++ operand) = assembleWith m operand := by
  obtain ⟨hne, hplain⟩ : m ≠ [] ∧ ∀ c ∈ m, isPlain c = true := by simpa [isMnemonic] using hm
  have hstrip : stripComment false (start ++ operand) = start ++ operand := by
    have hline : NoComment (start ++ operand) :=
      hstart ▸ ((noComment_of_plain hplain).append (noComment_of_unmarked (by simp))).append hcomment
    simpa [stripComment] using hline []
  have htrim : trimBlanks (start ++ operand) = start ++ operand := by
    have hlast := hend.append_left start
    subst hstart
    obtain ⟨c, cs, rfl⟩ := List.exists_cons_of_ne_nil hne
    exact trimBlanks_eq_self (isBlank_of_plain (hplain c List.mem_cons_self)) hlast
  have hspace : ∀ c ∈ m, c ≠ ' ' := fun c hc => by
    obtain ⟨-, -, -, -, hspace, -⟩ := isPlain_iff.1 (hplain c hc)
    exact hspace
  rw [assembleLine, hstrip, htrim, assembleStatement, hstart, List.append_assoc, List.singleton_append,
    splitMnemonic_append hspace]
  rfl

section
variable {operand : List Char} (hcomment : NoComment operand) (hend : EndsSolid operand)
include hcomment hend

theorem assembleLine_absorb :
    assembleLine ("absorb ".toList ++ operand) = (parseByte operand).map fun b => [encode (.absorb b)] :=
  assembleLine_append (m := "absorb".toList) rfl (by decide) hcomment hend

theorem assembleLine_absorbNumber :
    assembleLine ("absorb_number ".toList ++ operand) =
      (parseUpTo maxArg operand).map fun n => [encode (.absorbNumber n)] :=
  assembleLine_append (m := "absorb_number".toList) rfl (by decide) hcomment hend

theorem assembleLine_squeeze :
    assembleLine ("squeeze ".toList ++ operand) = (parseUpTo maxArg operand).map fun n => [encode (.squeeze n)] :=
  assembleLine_append (m := "squeeze".toList) rfl (by decide) hcomment hend

theorem assembleLine_squeezeXor :
    assembleLine ("squeeze_xor ".toList ++ operand) = (parseByte operand).map fun d => [encode (.squeezeXor d)] :=
  assembleLine_append (m := "squeeze_xor".toList) rfl (by decide) hcomment hend

theorem assembleLine_word :
    assembleLine (".word ".toList ++ operand) = (parseUpTo (2 ^ 64 - 1) operand).map fun v => [BitVec.ofNat 64 v] :=
  assembleLine_append (m := ".word".toList) rfl (by decide) hcomment hend

theorem assembleLine_absorbBytes :
    assembleLine ("absorb.bytes ".toList ++ operand) =
      (parseByteList operand).map fun bs => (expand (.absorbBytes bs)).map encode :=
  assembleLine_append (m := "absorb.bytes".toList) rfl (by decide) hcomment hend

theorem assembleLine_absorbNumberWide :
    assembleLine ("absorb_number.wide ".toList ++ operand) =
      (parseNumber operand).map fun n => (expand (.absorbNumberWide n)).map encode :=
  assembleLine_append (m := "absorb_number.wide".toList) rfl (by decide) hcomment hend

theorem assembleLine_squeezeWide :
    assembleLine ("squeeze.wide ".toList ++ operand) =
      (parseNumber operand).map fun n => (expand (.squeezeWide n)).map encode :=
  assembleLine_append (m := "squeeze.wide".toList) rfl (by decide) hcomment hend

theorem assembleLine_squeezeXorBuf :
    assembleLine ("squeeze_xor.buf ".toList ++ operand) =
      (parseByteList operand).map fun ds => (expand (.squeezeXorBuf ds)).map encode :=
  assembleLine_append (m := "squeeze_xor.buf".toList) rfl (by decide) hcomment hend

end

/-! Operands in their ranges -/

section
variable {α : Type} {text : List Char} {n : Nat} (h : parseNumber text = some n)
include h

theorem map_parseUpTo (limit : Nat) (f : Nat → α) :
    (parseUpTo limit text).map f = if n ≤ limit then some (f n) else none := by
  rw [parseUpTo, h]
  exact apply_ite (Option.map f) ..

theorem parseByte_eq : parseByte text = if n ≤ 255 then some (BitVec.ofNat 8 n) else none := map_parseUpTo h 255 _

theorem map_parseByte (f : Byte → α) :
    (parseByte text).map f = if n ≤ 255 then some (f (BitVec.ofNat 8 n)) else none := by
  rw [parseByte_eq h]
  exact apply_ite (Option.map f) ..

end

/-! Operand lists -/

theorem splitCommas_cons (part : List Char) {c : Char} (cs : List Char) (hcomma : c ≠ ',') (hquote : c ≠ '\'') :
    splitCommas part (c :: cs) = splitCommas (c :: part) cs := by
  rcases cs with _ | ⟨x, _ | ⟨y, rest⟩⟩ <;> simp [splitCommas, hcomma, hquote]

theorem splitCommas_comma (part cs : List Char) : splitCommas part (',' :: cs) = part.reverse :: splitCommas [] cs := by
  rcases cs with _ | ⟨x, _ | ⟨y, rest⟩⟩ <;> simp [splitCommas]

theorem splitCommas_plain {text : List Char} (h : ∀ c ∈ text, isPlain c = true) (part rest : List Char) :
    splitCommas part (text ++ rest) = splitCommas (text.reverse ++ part) rest := by
  induction text generalizing part with
  | nil => rfl
  | cons c cs ih =>
    obtain ⟨hc, hcs⟩ := List.forall_mem_cons.1 h
    obtain ⟨-, -, hquote, hcomma, -⟩ := isPlain_iff.1 hc
    rw [List.cons_append, splitCommas_cons _ _ hcomma hquote, ih hcs, List.reverse_cons, List.append_assoc,
      List.singleton_append]

/-- An operand that reads as a number is read into one part, a comma as a literal included (R83). -/
theorem OperandText.splitCommas_append {text : List Char} (h : OperandText text) (part rest : List Char) :
    splitCommas part (text ++ rest) = splitCommas (text.reverse ++ part) rest := by
  cases h with
  | plain c cs h => exact splitCommas_plain h part rest
  | literal c => simp [splitCommas]

/-- The operands as a line spells them: a comma and a space between two. -/
abbrev operandLine (texts : List (List Char)) : List Char := List.intercalate [',', ' '] texts

theorem operandLine_singleton (text : List Char) : operandLine [text] = text := by simp [operandLine]

theorem operandLine_cons_cons (text next : List Char) (more : List (List Char)) :
    operandLine (text :: next :: more) = text ++ [',', ' '] ++ operandLine (next :: more) := by
  simp [operandLine]

section
variable {text : List Char} {texts : List (List Char)} (h : ∀ t ∈ text :: texts, OperandText t)
include h

/-- The parts of an operand list are its operands, each but the first after its space (R83). -/
theorem splitCommas_operandLine (part : List Char) :
    splitCommas part (operandLine (text :: texts)) = (part.reverse ++ text) :: texts.map (' ' :: ·) := by
  obtain ⟨htext, hrest⟩ := List.forall_mem_cons.1 h
  induction texts generalizing text part with
  | nil =>
    have hsplit := htext.splitCommas_append part []
    simpa [operandLine_singleton, splitCommas] using hsplit
  | cons next more ih =>
    obtain ⟨hnext, hmore⟩ := List.forall_mem_cons.1 hrest
    rw [operandLine_cons_cons, List.append_assoc, htext.splitCommas_append, List.cons_append, splitCommas_comma,
      List.singleton_append, splitCommas_cons _ _ (by decide) (by decide), ih hrest [' '] hnext hmore]
    simp

theorem noComment_operandLine : NoComment (operandLine (text :: texts)) := by
  induction texts generalizing text with
  | nil => rw [operandLine_singleton]; exact (h text List.mem_cons_self).noComment
  | cons next more ih =>
    obtain ⟨htext, hrest⟩ := List.forall_mem_cons.1 h
    rw [operandLine_cons_cons]
    exact (htext.noComment.append (noComment_of_unmarked (by simp))).append (ih hrest)

theorem endsSolid_operandLine : EndsSolid (operandLine (text :: texts)) := by
  induction texts generalizing text with
  | nil => rw [operandLine_singleton]; exact (h text List.mem_cons_self).endsSolid
  | cons next more ih =>
    rw [operandLine_cons_cons]
    exact (ih (List.forall_mem_cons.1 h).2).append_left _

/-- An operand list is read as its parts, and not as a string literal (R83). -/
theorem parseByteList_eq_parseBytes :
    parseByteList (operandLine (text :: texts)) = parseBytes (text :: texts.map (' ' :: ·)) := by
  have hsplit := splitCommas_operandLine h []
  obtain ⟨c, cs, rfl, -, hstring⟩ := (h text List.mem_cons_self).exists_cons
  obtain ⟨rest, hline⟩ : ∃ rest, operandLine ((c :: cs) :: texts) = c :: rest := by
    cases texts with
    | nil => exact ⟨cs, operandLine_singleton _⟩
    | cons next more => exact ⟨_, operandLine_cons_cons _ next more⟩
  rw [hline] at hsplit ⊢
  rw [parseByteList, if_neg hstring, hsplit]
  rfl

end

/-- The bytes of operands that each stand after a space (R83). -/
theorem parseBytes_spaced {operands : List (List Char × Nat)} (h : ∀ o ∈ operands, parseNumber o.1 = some o.2) :
    parseBytes ((operands.map Prod.fst).map (' ' :: ·)) =
      if ∀ o ∈ operands, o.2 ≤ 255 then some (operands.map fun o => BitVec.ofNat 8 o.2) else none := by
  induction operands with
  | nil => simp [parseBytes]
  | cons o os ih =>
    obtain ⟨ho, hos⟩ := List.forall_mem_cons.1 h
    have htrim : trimBlanks (' ' :: o.1) = o.1 := (operandText_of_parseNumber ho).trimBlanks_eq
    rw [List.map_cons, List.map_cons, parseBytes, htrim, parseByte_eq ho, ih hos]
    simp only [List.forall_mem_cons]
    by_cases hbyte : o.2 ≤ 255
    · by_cases hrest : ∀ p ∈ os, p.2 ≤ 255
      · rw [if_pos hbyte, if_pos hrest, if_pos ⟨hbyte, hrest⟩, List.map_cons]
      · rw [if_pos hbyte, if_neg hrest, if_neg fun hall => hrest hall.2]
    · rw [if_neg hbyte, if_neg (c := _ ∧ _) fun hall => hbyte hall.1]

/-- An operand list gives its bytes when each operand is a u8, and is refused otherwise (R81, R83). -/
theorem parseByteList_operands {operands : List (List Char × Nat)} (hne : operands ≠ [])
    (h : ∀ o ∈ operands, parseNumber o.1 = some o.2) :
    parseByteList (operandLine (operands.map Prod.fst)) =
      if ∀ o ∈ operands, o.2 ≤ 255 then some (operands.map fun o => BitVec.ofNat 8 o.2) else none := by
  obtain ⟨o, os, rfl⟩ := List.exists_cons_of_ne_nil hne
  have hfirst : parseBytes (o.1 :: (os.map Prod.fst).map (' ' :: ·)) =
      parseBytes (((o :: os).map Prod.fst).map (' ' :: ·)) := rfl
  rw [List.map_cons, parseByteList_eq_parseBytes (operandText_of_operands h), hfirst, parseBytes_spaced h]

/-! String literals -/

/-- The characters of a string literal: ASCII, and no double quote (R83). -/
theorem stringBytes_append {chars : List Char} (h : ∀ c ∈ chars, c.toNat < 128 ∧ c ≠ '"') :
    stringBytes (chars ++ ['"']) = some (chars.map fun c => BitVec.ofNat 8 c.toNat) := by
  induction chars with
  | nil => rfl
  | cons c cs ih =>
    obtain ⟨⟨hascii, hquote⟩, hcs⟩ := List.forall_mem_cons.1 h
    simp [stringBytes, hquote, asciiValue, hascii, ih hcs]

theorem parseByteList_string {chars : List Char} (h : ∀ c ∈ chars, c.toNat < 128 ∧ c ≠ '"') :
    parseByteList ('"' :: chars ++ ['"']) = some (chars.map fun c => BitVec.ofNat 8 c.toNat) :=
  stringBytes_append h

/-! The statements about the assembler -/

/-- Settles O6: each line is its mnemonic and its operand, and the operand is in the form's range or not. -/
theorem assemblerSpellsEachCommand : Obligations.AssemblerSpellsEachCommand := by
  refine ⟨by decide +kernel, by decide +kernel, fun text n h => ?_⟩
  have htext := operandText_of_parseNumber h
  have hcomment := htext.noComment
  have hend := htext.endsSolid
  refine ⟨?_, ?_, ?_, ?_, ?_, ?_, ?_⟩
  · rw [assembleLine_absorb hcomment hend, map_parseByte h]
  · rw [assembleLine_squeezeXor hcomment hend, map_parseByte h]
  · rw [assembleLine_absorbNumber hcomment hend, map_parseUpTo h, maxArg]
  · rw [assembleLine_squeeze hcomment hend, map_parseUpTo h, maxArg]
  · rw [assembleLine_word hcomment hend, map_parseUpTo h]
    exact if_congr (by omega) rfl rfl
  · rw [assembleLine_absorbNumberWide hcomment hend, h, Option.map_some]
  · rw [assembleLine_squeezeWide hcomment hend, h, Option.map_some]

/-- Settles O55: the operand of either line is a list of u8 operands or a string literal. -/
theorem assemblerReadsByteLists : Obligations.AssemblerReadsByteLists := by
  refine ⟨fun operands hne h => ?_, fun chars h => ?_, by decide +kernel, by decide +kernel⟩
  · have hbytes := parseByteList_operands hne h
    obtain ⟨o, os, rfl⟩ := List.exists_cons_of_ne_nil hne
    have htexts := operandText_of_operands h
    have hcomment : NoComment (operandLine ((o :: os).map Prod.fst)) := noComment_operandLine htexts
    have hend : EndsSolid (operandLine ((o :: os).map Prod.fst)) := endsSolid_operandLine htexts
    have habsorb := assembleLine_absorbBytes hcomment hend
    have hsqueeze := assembleLine_squeezeXorBuf hcomment hend
    rw [hbytes, apply_ite (Option.map _)] at habsorb hsqueeze
    exact ⟨habsorb, hsqueeze⟩
  · have hcomment : NoComment ('"' :: chars ++ ['"']) := noComment_string fun c hc => (h c hc).2
    have hend : EndsSolid ('"' :: chars ++ ['"']) := EndsSolid.append_left ⟨'"', rfl, rfl⟩ ('"' :: chars)
    have habsorb := assembleLine_absorbBytes hcomment hend
    have hsqueeze := assembleLine_squeezeXorBuf hcomment hend
    rw [parseByteList_string h] at habsorb hsqueeze
    exact ⟨habsorb, hsqueeze⟩

end Sys2Proof.Machine
end

section
/-! SUPPORT. The statements of 40_mixing_primitives.md. -/

namespace Sys2Proof.Machine

/-! One round of update, and many -/

theorem updateRound_j (e : Engine) :
    (updateRound e).j = e.k + e.mem.read (e.j + e.mem.read (updateRound e).i) := rfl
theorem updateRound_k (e : Engine) :
    (updateRound e).k = (updateRound e).i + e.k + e.mem.read (updateRound e).j := rfl

/-- A round exchanges the bytes at its new i and j (R100). -/
theorem updateRound_read {e : Engine} (hwf : e.mem.wf = true) (x : Byte) :
    (updateRound e).mem.read x = exchanged e.mem.read (updateRound e).i (updateRound e).j x := by
  rw [updateRound_mem, Memory.read_swap hwf]

/-- A round whose new i equals its new j moves no byte (R100). -/
theorem updateRound_mem_of_i_eq_j {e : Engine} (hwf : e.mem.wf = true) (h : (updateRound e).i = (updateRound e).j) :
    (updateRound e).mem = e.mem := by
  rw [updateRound_mem, h, Memory.swap_self hwf]

/-- A byte at neither new index of any of the rounds is left (R100). -/
theorem update_read_of_ne {e : Engine} (hwf : e.mem.wf = true) {n : Nat} {x : Byte}
    (hx : ∀ m < n, x ≠ (update (m + 1) e).i ∧ x ≠ (update (m + 1) e).j) :
    (update n e).mem.read x = e.mem.read x := by
  induction n with
  | zero => rfl
  | succ n ih =>
    obtain ⟨hi, hj⟩ := hx n n.lt_succ_self
    rw [update_succ] at hi hj ⊢
    rw [updateRound_read (wf_update hwf n), exchanged, if_neg hi, if_neg hj]
    exact ih fun m hm => hx m (by omega)

/-! i and w over a shuffle -/

/-- A whip of a multiple of 256 rounds leaves i (R108). -/
theorem whip_i_of_full_turns {n : Nat} (hn : BitVec.ofNat 8 n = 0) (e : Engine) : (whip n e).i = e.i := by
  rw [whip_i, update_i, hn, zero_mul, add_zero]

theorem shuffleOf_i_of_full_turns {n : Nat} (hn : BitVec.ofNat 8 n = 0) (p : Nat) (e : Engine) :
    (shuffleOf n p e).i = e.i := by
  simp only [shuffleOf_eq, whip_i_of_full_turns hn, crushOf_i]

/-- A whole shuffle leaves i, since 512·w is 0 modulo 256 (R108). -/
@[simp] theorem shuffle_i (e : Engine) : (shuffle e).i = e.i :=
  shuffleOf_i_of_full_turns (by rw [Config.whipRounds_eq]; rfl) _ e

/-- Three whips add 6 to w (R108). -/
theorem shuffle_w (e : Engine) : (shuffle e).w = e.w + 6 := by
  rw [shuffle_eq, shuffleOf_w, BitVec.add_assoc, BitVec.add_assoc]
  rfl

@[simp] theorem makeRoom_i (e : Engine) : (makeRoom e).i = e.i := by
  unfold makeRoom
  split
  · exact shuffle_i e
  · rfl

/-! The pairs of crush -/

/-- What crush leaves at `x` of the readings `f`: the smaller byte of the pair at the lower index, the larger at the
upper (R102). -/
def crushedByte (f : Byte → Byte) (x : Byte) : Byte :=
  if x < 128 then if f (255 - x) < f x then f (255 - x) else f x
  else if f x < f (255 - x) then f (255 - x) else f x

/-- The number v in 0..127 of the pair (v, 255 - v) an index is in (R102). -/
def pairIndex (x : Byte) : Nat := if x < 128 then x.toNat else (255 - x).toNat

theorem mirror_lt_iff (x : Byte) : 255 - x < 128 ↔ ¬ x < 128 := by bv_omega

theorem ne_mirror {v : Byte} (hv : v < 128) : 255 - v ≠ v := by bv_omega

theorem pairIndex_lt (x : Byte) : pairIndex x < 128 := by
  unfold pairIndex
  split <;> bv_omega

theorem pairIndex_mirror (x : Byte) : pairIndex (255 - x) = pairIndex x := by
  rw [pairIndex, if_congr (mirror_lt_iff x) rfl rfl, sub_sub_cancel, ite_not, pairIndex]

theorem pairIndex_eq_iff {n : Nat} (hn : n < 128) (x : Byte) :
    pairIndex x = n ↔ x = BitVec.ofNat 8 n ∨ x = 255 - BitVec.ofNat 8 n := by
  unfold pairIndex
  split <;> bv_omega

theorem crushedByte_lower (f : Byte → Byte) {v : Byte} (hv : v < 128) :
    crushedByte f v = if f (255 - v) < f v then f (255 - v) else f v := if_pos hv

theorem crushedByte_upper (f : Byte → Byte) {v : Byte} (hv : v < 128) :
    crushedByte f (255 - v) = if f (255 - v) < f v then f v else f (255 - v) := by
  rw [crushedByte, if_neg ((mirror_lt_iff v).not.2 (not_not.2 hv)), sub_sub_cancel]

/-- What crush leaves at an index depends on the readings of its pair only (R109). -/
theorem crushedByte_congr {f g : Byte → Byte} {x : Byte} (hx : g x = f x) (hmirror : g (255 - x) = f (255 - x)) :
    crushedByte g x = crushedByte f x := by
  rw [crushedByte, hx, hmirror, crushedByte]

/-- Each pair is left in order (R102). -/
theorem crushedByte_ordered (f : Byte → Byte) {v : Byte} (hv : v < 128) :
    ¬ crushedByte f (255 - v) < crushedByte f v := by
  rw [crushedByte_lower f hv, crushedByte_upper f hv]
  split
  · exact BitVec.lt_asymm ‹_›
  · assumption

/-- A pair in order stays as it is (R102, R109). -/
theorem crushedByte_crushedByte (f : Byte → Byte) (x : Byte) :
    crushedByte (crushedByte f) x = crushedByte f x := by
  by_cases hx : x < 128
  · rw [crushedByte_lower _ hx, if_neg (crushedByte_ordered f hx)]
  · have hv := (mirror_lt_iff x).2 hx
    have hupper := crushedByte_upper (crushedByte f) hv
    rwa [if_neg (crushedByte_ordered f hv), sub_sub_cancel] at hupper

/-- One pair of crush leaves its two bytes in order and every other byte as it is (R102). -/
theorem crushPair_read {m : Memory} (hwf : m.wf = true) {n : Nat} (hn : n < 128) (x : Byte) :
    (crushPair m (BitVec.ofNat 8 n)).read x = if pairIndex x = n then crushedByte m.read x else m.read x := by
  have hcases : (crushPair m (BitVec.ofNat 8 n)).read x =
      if m.read (255 - BitVec.ofNat 8 n) < m.read (BitVec.ofNat 8 n)
        then exchanged m.read (BitVec.ofNat 8 n) (255 - BitVec.ofNat 8 n) x else m.read x := by
    rw [crushPair, apply_ite (fun m : Memory => m.read x), Memory.read_swap hwf]
  have hv : BitVec.ofNat 8 n < 128 := by bv_omega
  rw [hcases, exchanged]
  by_cases hx : pairIndex x = n
  · obtain rfl | rfl := (pairIndex_eq_iff hn x).1 hx
    · rw [if_pos hx, if_pos rfl, crushedByte_lower _ hv]
    · rw [if_pos hx, if_neg (ne_mirror hv), if_pos rfl, crushedByte_upper _ hv]
  · obtain ⟨hlower, hupper⟩ := not_or.1 ((pairIndex_eq_iff hn x).not.1 hx)
    rw [if_neg hx, if_neg hlower, if_neg hupper, ite_self]

/-- The pairs of crush, visited in a given order (R109). -/
def visitPairs (order : List Nat) (m : Memory) : Memory := order.foldl (fun m v => crushPair m (BitVec.ofNat 8 v)) m

theorem visitPairs_cons (v : Nat) (vs : List Nat) (m : Memory) :
    visitPairs (v :: vs) m = visitPairs vs (crushPair m (BitVec.ofNat 8 v)) := rfl

theorem crushPairs_eq_visitPairs (n : Nat) (m : Memory) : crushPairs n m = visitPairs (List.range n) m := by
  induction n with
  | zero => rfl
  | succ n ih => rw [crushPairs, ih, visitPairs, visitPairs, List.range_succ, List.foldl_concat]

theorem wf_visitPairs (order : List Nat) {m : Memory} (hwf : m.wf = true) : (visitPairs order m).wf = true := by
  induction order generalizing m with
  | nil => exact hwf
  | cons v vs ih => exact ih (wf_crushPair hwf _)

/-- Whatever the order, the pairs visited are left in order and the others as they are (R109). -/
theorem visitPairs_read {order : List Nat} (horder : ∀ v ∈ order, v < 128) {m : Memory} (hwf : m.wf = true)
    (x : Byte) :
    (visitPairs order m).read x = if pairIndex x ∈ order then crushedByte m.read x else m.read x := by
  induction order generalizing m with
  | nil => rfl
  | cons v vs ih =>
    obtain ⟨hv, hvs⟩ := List.forall_mem_cons.1 horder
    have hpair := crushPair_read hwf hv
    have hmirror := hpair (255 - x)
    rw [pairIndex_mirror] at hmirror
    have hrest := ih hvs (wf_crushPair hwf (BitVec.ofNat 8 v))
    rw [visitPairs_cons]
    by_cases hx : pairIndex x = v
    · rw [hrest, hpair, crushedByte_congr ((hpair x).trans (if_pos hx)) (hmirror.trans (if_pos hx)),
        crushedByte_crushedByte, if_pos hx, ite_self, if_pos (hx ▸ List.mem_cons_self)]
    · rw [hrest, hpair, crushedByte_congr ((hpair x).trans (if_neg hx)) (hmirror.trans (if_neg hx)), if_neg hx]
      simp [hx]

/-- crush leaves every pair in order (R102). -/
theorem crush_read {e : Engine} (hwf : e.mem.wf = true) (x : Byte) :
    (crush e).mem.read x = crushedByte e.mem.read x := by
  rw [crush_eq, crushOf_mem, Config.pairCount_eq, crushPairs_eq_visitPairs,
    visitPairs_read (fun v hv => List.mem_range.1 hv) hwf, if_pos (List.mem_range.2 (pairIndex_lt x))]

theorem wf_crush {e : Engine} (hwf : e.mem.wf = true) : (crush e).mem.wf = true := wf_crushOf hwf _

/-- A second crush changes nothing (R109). -/
theorem crush_crush {e : Engine} (hwf : e.mem.wf = true) : crush (crush e) = crush e := by
  have hmem : (crush (crush e)).mem = (crush e).mem :=
    Memory.ext_read (wf_crush (wf_crush hwf)) (wf_crush hwf) fun x => by
      rw [crush_read (wf_crush hwf), funext (crush_read hwf), crushedByte_crushedByte]
  exact congrArg (fun m => { e with mem := m }) hmem

/-! a and z in a shuffle -/

/-- An engine with another a and another z. -/
def Engine.withAZ (a : Fin 129) (z : Byte) (e : Engine) : Engine := { e with a := a, z := z }

section
variable (a : Fin 129) (z : Byte) (e : Engine)

theorem update_withAZ (n : Nat) : update n (e.withAZ a z) = (update n e).withAZ a z := by
  induction n with
  | zero => rfl
  | succ n ih => rw [update_succ, ih, update_succ]; rfl

theorem whip_withAZ (n : Nat) : whip n (e.withAZ a z) = (whip n e).withAZ a z := by
  rw [whip, update_withAZ]; rfl

theorem crushOf_withAZ (p : Nat) : crushOf p (e.withAZ a z) = (crushOf p e).withAZ a z := rfl

/-- The whips and crushes of a shuffle read neither a nor z, and a is 0 after them (R110). -/
theorem shuffleOf_withAZ (n p : Nat) : shuffleOf n p (e.withAZ a z) = { shuffleOf n p e with z := z } := by
  rw [shuffleOf_eq, shuffleOf_eq, whip_withAZ, crushOf_withAZ, whip_withAZ, crushOf_withAZ, whip_withAZ]
  rfl

theorem shuffle_withAZ : shuffle (e.withAZ a z) = { shuffle e with z := z } := shuffleOf_withAZ a z e _ _

end

theorem absorbStop_of_lt {e : Engine} (h : e.a.val < 128) : absorbStop e = e.withAZ (countNibble e.a) e.z := by
  rw [absorbStop, makeRoom_of_lt h]; rfl

/-- With a in 1..127, a stop changes nothing of what the phase check leaves (R110). -/
theorem finishAbsorbing_absorbStop {e : Engine} (hlo : 1 ≤ e.a.val) (hhi : e.a.val ≤ 127) :
    finishAbsorbing (absorbStop e) = finishAbsorbing e := by
  have hstop := absorbStop_of_lt (e := e) (by omega)
  have hpos : 0 < (absorbStop e).a.val := by
    rw [absorbStop_a, countNibble_makeRoom]
    split <;> omega
  rw [finishAbsorbing_pos hpos, finishAbsorbing_pos hlo, hstop, shuffle_withAZ, Engine.with_z (shuffle_z e)]

/-- A stop the next command does not notice changes nothing of what that command leaves. -/
theorem execAll_absorbStop {i : Instr} {s : State} (herr : s.err = false)
    (h : exec i { s with engine := absorbStop s.engine } = exec i s) :
    ∃ t, exec i s = .next t ∧ execAll [.absorbStop, i] s = .next t := by
  obtain ⟨t, ht⟩ := exec_next i s
  refine ⟨t, ht, ?_⟩
  rw [execAll, execAbsorbStop_eq, unlessHeld_clear _ _ herr]
  simp only [execAll, h, ht]

/-! The exchange of absorb_nibble -/

theorem nibbleIndex_ge (x : Nibble) : 128 ≤ (nibbleIndex x).toNat := by
  revert x
  decide

/-- After the room check the position and the nibble target are two indices (R104). -/
theorem absorbIndex_makeRoom_ne_nibbleIndex (e : Engine) (x : Nibble) :
    absorbIndex (makeRoom e).a ≠ nibbleIndex x := by
  intro heq
  have hle := makeRoom_a_le e
  have hge := nibbleIndex_ge x
  rw [← heq, absorbIndex_toNat] at hge
  omega

/-! What an absorbing step reads and keeps -/

/-- `f` neither reads nor writes z, keeps i and leaves a count of at least one (R104, R108, R135). -/
structure AbsorbsApartFromZ (f : Engine → Engine) : Prop where
  readsNoZ : ∀ (z : Byte) (e : Engine), f { e with z := z } = { f e with z := z }
  z : ∀ e : Engine, (f e).z = e.z
  i : ∀ e : Engine, (f e).i = e.i
  counts : ∀ e : Engine, 1 ≤ (f e).a.val

theorem AbsorbsApartFromZ.comp {f g : Engine → Engine} (hg : AbsorbsApartFromZ g) (hf : AbsorbsApartFromZ f) :
    AbsorbsApartFromZ (g ∘ f) where
  readsNoZ z e := (congrArg g (hf.readsNoZ z e)).trans (hg.readsNoZ z (f e))
  z e := (hg.z (f e)).trans (hf.z e)
  i e := (hg.i (f e)).trans (hf.i e)
  counts e := hg.counts (f e)

/-- The room check does not read z (R110). -/
theorem makeRoom_with_z (z : Byte) (e : Engine) : makeRoom { e with z := z } = { makeRoom e with z := z } := by
  unfold makeRoom
  split
  · exact shuffle_withAZ e.a z e
  · rfl

theorem countNibble_makeRoom_pos (e : Engine) : 1 ≤ (countNibble (makeRoom e).a).val := by
  rw [countNibble_makeRoom]
  split <;> omega

theorem absorbsApartFromZ_absorbNibble (x : Nibble) : AbsorbsApartFromZ (absorbNibble x) where
  readsNoZ z e := by rw [absorbNibble, makeRoom_with_z]; rfl
  z := absorbNibble_z (x := x)
  i := makeRoom_i
  counts := countNibble_makeRoom_pos

theorem absorbsApartFromZ_absorbStop : AbsorbsApartFromZ absorbStop where
  readsNoZ z e := by rw [absorbStop, makeRoom_with_z]; rfl
  z := makeRoom_z
  i := makeRoom_i
  counts := countNibble_makeRoom_pos

theorem absorbsApartFromZ_absorbByte (b : Byte) : AbsorbsApartFromZ (absorbByte b) :=
  (absorbsApartFromZ_absorbNibble _).comp (absorbsApartFromZ_absorbNibble _)

theorem absorbsApartFromZ_absorbBytes (b : Byte) (bs : List Byte) : AbsorbsApartFromZ (absorbBytes (b :: bs)) := by
  induction bs generalizing b with
  | nil => exact absorbsApartFromZ_absorbByte b
  | cons b' bs ih => exact (ih b').comp (absorbsApartFromZ_absorbByte b)

/-- A number has at least one byte (R132). -/
theorem exists_numberBytes_eq_cons (n : Nat) : ∃ b bs, numberBytes n = b :: bs := by
  cases n <;> exact ⟨_, _, rfl⟩

/-- Each command of the absorb family is such a function on the engine, performed unless held (R130 to R132). -/
theorem exec_absorbFamily {i : Instr} (hi : (∃ b, i = .absorb b) ∨ i = .absorbStop ∨ ∃ n, i = .absorbNumber n) :
    ∃ f, AbsorbsApartFromZ f ∧ ∀ s, exec i s = .next (unlessHeld s { s with engine := f s.engine }) := by
  obtain ⟨b, rfl⟩ | rfl | ⟨n, rfl⟩ := hi
  · exact ⟨absorbByte b, absorbsApartFromZ_absorbByte b, execAbsorb_eq b⟩
  · exact ⟨absorbStop, absorbsApartFromZ_absorbStop, execAbsorbStop_eq⟩
  · obtain ⟨b, bs, hbytes⟩ := exists_numberBytes_eq_cons n
    exact ⟨absorbBytes (numberBytes n), hbytes ▸ absorbsApartFromZ_absorbBytes b bs, execAbsorbNumber_eq n⟩

/-! What the drips of a squeeze store -/

/-- A drip differs from a round of update in z alone (R106). -/
theorem dripOne_with_z (z : Byte) (e : Engine) :
    dripOne { e with z := z } = { updateRound e with z := (dripOne { e with z := z }).z } := rfl

/-- n drips store what n rounds of update store (R106, R150). -/
theorem dripOne_iterate_eq (n : Nat) (e : Engine) :
    dripOne^[n] e = { update n e with z := (dripOne^[n] e).z } := by
  induction n with
  | zero => rfl
  | succ n ih => rw [Function.iterate_succ_apply', ih, dripOne_with_z, update_succ]

theorem dripOne_iterate_mem (n : Nat) (e : Engine) : (dripOne^[n] e).mem = (update n e).mem := by
  rw [dripOne_iterate_eq]

theorem finishAbsorbing_eq (e : Engine) : finishAbsorbing e = if e.a.val > 0 then shuffle e else e := by
  simp [finishAbsorbing, absorbing]

theorem wf_finishAbsorbing {e : Engine} (hwf : e.mem.wf = true) : (finishAbsorbing e).mem.wf = true := by
  rw [finishAbsorbing_eq]
  split
  · exact wf_shuffle hwf
  · exact hwf

/-- With ERR = 0 a squeeze writes OUTQ and the engine: the phase check and its drips (R150, R151). -/
theorem exec_squeeze_engine {i : Instr} {n : Nat} {s t : State} (herr : s.err = false)
    (hi : i = .squeeze n ∨ n = 1 ∧ ∃ d, i = .squeezeXor d) (h : exec i s = .next t) :
    ∃ outq, t = { s with engine := dripOne^[n] (finishAbsorbing s.engine), outq := outq } := by
  obtain rfl | ⟨rfl, d, rfl⟩ := hi
  · cases h
    rw [unlessHeld_clear _ _ herr, drips_eq]
    exact ⟨_, rfl⟩
  · cases h
    rw [unlessHeld_clear _ _ herr]
    exact ⟨_, rfl⟩

/-- A drip is one round, three nested reads and the final read (R112). -/
theorem countedDrip_eq (c : Counted) :
    countedDrip c =
      { engine := dripOne c.engine
        work := { c.work with
          rounds := c.work.rounds + 1
          nestedReads := c.work.nestedReads + 3
          finalReads := c.work.finalReads + 1 } } := rfl

/-! The statements -/

/-- Settles O25: the moves keep mem in canonical form and a permutation. -/
theorem eachPrimitiveKeepsMemAPermutation : Obligations.EachPrimitiveKeepsMemAPermutation := fun _ hwf hperm =>
  have he := And.intro hwf hperm
  ⟨kept_update keptByMoves_mem he, kept_whip keptByMoves_mem he, kept_crushOf keptByMoves_mem he _,
    kept_shuffle keptByMoves_mem he, kept_absorbNibble keptByMoves_mem he, kept_dripOne keptByMoves_mem he⟩

/-- Settles O28: the lines of one round, and the examples run. -/
theorem updateRoundFollowsItsPseudocode : Obligations.UpdateRoundFollowsItsPseudocode :=
  ⟨update_zero, fun e n => update_succ e n,
    fun e hwf => ⟨updateRound_i e, updateRound_j e, updateRound_k e, updateRound_read hwf,
      updateRound_mem_of_i_eq_j hwf, updateRound_w e, updateRound_z e, updateRound_a e⟩,
    by decide, by decide, by decide, by decide, by decide, by decide⟩

/-- Settles O30: i moves by w each round, and a shuffle's rounds are multiples of 256. -/
theorem updateAdvancesIByTimesW : Obligations.UpdateAdvancesIByTimesW :=
  ⟨update_i, whip_i_of_full_turns rfl, fun e => ⟨shuffle_i e, shuffle_w e⟩⟩

/-- Settles O31: crush leaves each pair in order and writes mem alone. -/
theorem crushOrdersEachPair : Obligations.CrushOrdersEachPair := by
  intro e hwf
  refine ⟨fun v hv => ⟨?_, ?_⟩, rfl, rfl, rfl, rfl, rfl, rfl⟩
  · rw [crush_read hwf, crushedByte_lower _ hv]
  · rw [crush_read hwf, crushedByte_upper _ hv]

/-- Settles O32: the pairs do not share an index, so their order does not show. -/
theorem crushIsOrderFreeAndIdempotent : Obligations.CrushIsOrderFreeAndIdempotent := by
  refine ⟨fun m order hwf hperm => ?_, fun e hwf hperm v hv => ?_, fun e => crush_crush⟩
  · change visitPairs order m = _
    rw [crushPairs_eq_visitPairs]
    refine Memory.ext_read (wf_visitPairs order hwf) (wf_visitPairs _ hwf) fun x => ?_
    rw [visitPairs_read (fun v hv => List.mem_range.1 (hperm.mem_iff.1 hv)) hwf,
      visitPairs_read (fun v => List.mem_range.1) hwf, if_congr hperm.mem_iff rfl rfl]
  · obtain ⟨-, hinj, -⟩ := kept_crushOf keptByMoves_mem ⟨hwf, hperm⟩ Config.pairCount
    have hordered := crushedByte_ordered e.mem.read hv
    rw [← crush_read hwf, ← crush_read hwf, BitVec.not_lt] at hordered
    have hne : (crush e).mem.read v ≠ (crush e).mem.read (255 - v) := fun heq => ne_mirror hv (hinj _ _ heq).symm
    exact BitVec.lt_of_le_ne hordered hne

/-- Settles O33: neither a nor z is read by the whips and crushes, and the phase check shuffles in both cases. -/
theorem shuffleReadsNeitherANorZ : Obligations.ShuffleReadsNeitherANorZ := by
  refine ⟨fun e a z => shuffle_withAZ a z e, fun e => ⟨shuffle_a e, shuffle_z e⟩, fun s n herr hlo hhi => ?_⟩
  have hfinish := finishAbsorbing_absorbStop hlo hhi
  refine ⟨execAll_absorbStop herr ?_, fun d => execAll_absorbStop herr ?_⟩
  · simp only [execSqueeze_eq, unlessHeld_clear, herr, hfinish]
  · simp only [execSqueezeXor_eq, unlessHeld_clear, herr, hfinish]

/-- Settles O34: after the room check the position is below 128 and the nibble target is not. -/
theorem absorbNibbleSwapsOnePair : Obligations.AbsorbNibbleSwapsOnePair := by
  intro e x hwf
  have hle := makeRoom_a_le e
  have hne := absorbIndex_makeRoom_ne_nibbleIndex e x
  exact ⟨hle, hne, Memory.read_swap (wf_makeRoom hwf) _ _, countNibble_val hle, rfl, rfl, rfl, makeRoom_z e, rfl⟩

/-- Settles O45: each command of the family is a function on the engine apart from z, performed unless held. -/
theorem absorbFamilyFrame : Obligations.AbsorbFamilyFrame := by
  intro i s t hi h
  obtain ⟨f, hf, hexec⟩ := exec_absorbFamily hi
  rw [hexec] at h
  obtain herr | herr := Bool.eq_false_or_eq_true s.err
  · rw [unlessHeld_held _ _ herr] at h
    cases h
    refine ⟨rfl, rfl, rfl, fun _ => rfl, by simp [herr], fun z => ?_⟩
    simp only [hexec, unlessHeld_held, herr]
  · rw [unlessHeld_clear _ _ herr] at h
    cases h
    refine ⟨rfl, hf.z _, hf.i _, by simp [herr], fun _ => hf.counts _, fun z => ?_⟩
    rw [hexec, hf.readsNoZ]
    simp only [unlessHeld_clear, herr]

/-- Settles O47: a squeeze's drips store what as many rounds of update store. -/
theorem squeezeStoresOnlyAtItsRounds : Obligations.SqueezeStoresOnlyAtItsRounds := by
  intro i n s t herr hwf hi h
  obtain ⟨outq, rfl⟩ := exec_squeeze_engine herr hi h
  intro e
  have he : finishAbsorbing s.engine = e := finishAbsorbing_eq s.engine
  have hwfe : e.mem.wf = true := he ▸ wf_finishAbsorbing hwf
  refine ⟨rfl, fun x hx => ?_⟩
  rw [he, dripOne_iterate_mem, update_read_of_ne hwfe hx]

/-- Settles O29: the lines of whip and of shuffle, and the example run. -/
theorem whipAndShuffleFollowTheirPseudocode : Obligations.WhipAndShuffleFollowTheirPseudocode := by
  refine ⟨fun amount e => ?_, fun e => ?_, by decide, fun e hw => ?_⟩
  · rw [whip, update_w]
  · rw [shuffle_eq, shuffleOf_eq, Config.whipRounds_eq, crush_eq, crush_eq]
  · rw [whip_w, hw]; rfl

/-- Settles O35: the lines of drip_one, and the example run. -/
theorem dripOneFollowsItsPseudocode : Obligations.DripOneFollowsItsPseudocode :=
  ⟨fun e => ⟨rfl, dripOne_a e, dripOne_w e⟩, by decide⟩

/-- Settles O53: the counts of each primitive's rounds and pairs. -/
theorem primitivesPerformTheirOperationCounts : Obligations.PrimitivesPerformTheirOperationCounts := by
  refine fun c => ⟨fun times => countedUpdate_eq times c, countedWhip_eq 512 c, ?_, ?_, countedDrip_eq c⟩
  · rw [countedCrush, countedCrushOf_eq, crush_eq, Config.pairCount_eq]; rfl
  · rw [countedShuffle_eq, Config.whipRounds_eq, Config.pairCount_eq]; rfl

end Sys2Proof.Machine
end

section
/-! SUPPORT. The statements of 41_absorb_family.md. -/

namespace Sys2Proof.Machine

/-! The words of the absorb family -/

/-- A word with a defined opcode is its argument decoded, or RESERVED_BITS when `rsv` is not zero (R78). -/
theorem decode_of_opcode {w : CmdWord} {op : Opcode} (hop : opField w = op.value) :
    decode w = if rsvField w = 0#24 then decodeArg op (argField w) else .illegal .reservedBits := by
  split
  · exact decode_of_fields hop ‹_›
  · exact decode_of_reserved hop ‹_›

/-- Everything below the opcode is zero exactly when `rsv` and `arg` are (R75). -/
theorem belowOpcode_eq_zero_iff (w : CmdWord) :
    w.extractLsb' 0 56 = 0#56 ↔ rsvField w = 0#24 ∧ argField w = 0#32 := by
  have hrsv : (w.extractLsb' 0 56).extractLsb' 32 24 = rsvField w := BitVec.extractLsb'_extractLsb'_of_le (by decide)
  have harg : (w.extractLsb' 0 56).extractLsb' 0 32 = argField w := BitVec.extractLsb'_extractLsb'_of_le (by decide)
  have hsplit : rsvField w ++ argField w = w.extractLsb' 0 56 :=
    BitVec.extractLsb'_append_extractLsb'_eq_extractLsb' (by decide)
  constructor
  · intro h
    rw [← hrsv, ← harg, h]
    decide
  · rintro ⟨h, h'⟩
    rw [← hsplit, h, h']
    rfl

/-! Absorbing with room, and with a forced shuffle -/

theorem nibbleIndex_lowNibble (b : Byte) : nibbleIndex (lowNibble b) = 128 + (b &&& 0xF) := by
  revert b
  decide

theorem nibbleIndex_highNibble (b : Byte) : nibbleIndex (highNibble b) = 128 + (b >>> 4) := by
  revert b
  decide

/-- With room, absorb_nibble exchanges the bytes at its position and at its nibble target (R104). -/
theorem absorbNibble_read_of_lt {e : Engine} (ha : e.a.val < 128) (hwf : e.mem.wf = true) (x : Nibble) (y : Byte) :
    (absorbNibble x e).mem.read y = exchanged e.mem.read (absorbIndex e.a) (nibbleIndex x) y := by
  rw [absorbNibble_of_lt x ha, Memory.read_swap hwf]

/-- With room for both nibbles, absorb_byte counts two and exchanges twice (R105, R130). -/
theorem absorbByte_of_room {e : Engine} (ha : e.a.val ≤ 126) (hwf : e.mem.wf = true) (b : Byte) :
    let f := absorbByte b e
    f.a.val = e.a.val + 2 ∧ f.i = e.i ∧ f.j = e.j ∧ f.k = e.k ∧ f.w = e.w ∧
      ∀ y : Byte, f.mem.read y =
        exchanged (exchanged e.mem.read (BitVec.ofNat 8 e.a.val) (nibbleIndex (lowNibble b)))
          (BitVec.ofNat 8 (e.a.val + 1)) (nibbleIndex (highNibble b)) y := by
  have hframe : AbsorbFrame [lowNibble b, highNibble b] e (absorbByte b e) :=
    absorbNibbles_frame [lowNibble b, highNibble b] hwf (by simpa using ha)
  have hcount := absorbNibble_a_of_lt (lowNibble b) (e := e) (by omega)
  have hlow := funext (absorbNibble_read_of_lt (by omega) hwf (lowNibble b))
  refine ⟨hframe.a, hframe.i, hframe.j, hframe.k, hframe.w, fun y => ?_⟩
  rw [absorbByte, absorbNibble_read_of_lt (by omega) (wf_absorbNibble hwf _), hlow, absorbIndex, absorbIndex, hcount]

/-- From a = 0, absorb_nibble stores at position 0 (R104). -/
theorem absorbNibble_of_zero {e : Engine} (ha : e.a = 0) (hwf : e.mem.wf = true) (x : Nibble) :
    let f := absorbNibble x e
    f.a = 1 ∧ f.i = e.i ∧ f.j = e.j ∧ f.k = e.k ∧ f.w = e.w ∧
      ∀ y : Byte, f.mem.read y = exchanged e.mem.read 0 (nibbleIndex x) y := by
  have hroom : e.a.val < 128 := by rw [ha]; decide
  have hread := absorbNibble_read_of_lt hroom hwf x
  rw [ha] at hread
  rw [absorbNibble_of_lt x hroom, ha] at hread ⊢
  exact ⟨rfl, rfl, rfl, rfl, rfl, hread⟩

/-- From a = 0, absorb_byte stores at positions 0 and 1 (R105). -/
theorem absorbByte_of_zero {e : Engine} (ha : e.a = 0) (hwf : e.mem.wf = true) (b : Byte) :
    let f := absorbByte b e
    f.a = 2 ∧ f.i = e.i ∧ f.j = e.j ∧ f.k = e.k ∧ f.w = e.w ∧
      ∀ y : Byte, f.mem.read y =
        exchanged (exchanged e.mem.read 0 (nibbleIndex (lowNibble b))) 1 (nibbleIndex (highNibble b)) y := by
  obtain ⟨hcount, hrest⟩ := absorbByte_of_room (by rw [ha]; decide) hwf b
  rw [ha] at hcount hrest
  exact ⟨Fin.ext hcount, hrest⟩

/-- At a = 128, absorb_nibble is absorb_nibble after a shuffle (R104). -/
theorem absorbNibble_of_full {e : Engine} (ha : e.a.val = 128) (x : Nibble) :
    absorbNibble x e = absorbNibble x (shuffle e) := by
  have hroom : (shuffle e).a.val < 128 := by rw [shuffle_a]; decide
  rw [absorbNibble, makeRoom_of_full ha, absorbNibble_of_lt x hroom]

/-- At a = 128, absorb_byte is absorb_byte after a shuffle (R130). -/
theorem absorbByte_of_full {e : Engine} (ha : e.a.val = 128) (b : Byte) :
    absorbByte b e = absorbByte b (shuffle e) := by
  rw [absorbByte, absorbByte, absorbNibble_of_full ha]

/-- At a = 127 the low nibble takes the last position, and a shuffle comes before the high nibble (R130). -/
theorem absorbByte_of_last {e : Engine} (ha : e.a.val = 127) (b : Byte) :
    absorbByte b e = absorbNibble (highNibble b)
      (shuffle { e with mem := e.mem.swap 127 (nibbleIndex (lowNibble b)), a := 128 }) := by
  have ha127 : e.a = 127 := Fin.ext ha
  have hlow : absorbNibble (lowNibble b) e =
      { e with mem := e.mem.swap 127 (nibbleIndex (lowNibble b)), a := 128 } := by
    rw [absorbNibble_of_lt _ (by omega), ha127]
    rfl
  rw [absorbByte, hlow, absorbNibble_of_full rfl]

/-- At a = 128 a stop costs a shuffle and leaves a = 1 (R131). -/
theorem absorbStop_of_full {e : Engine} (ha : e.a.val = 128) : absorbStop e = { shuffle e with a := 1 } := by
  have hcount : countNibble (shuffle e).a = 1 := by rw [shuffle_a]; rfl
  rw [absorbStop, makeRoom_of_full ha, hcount]

/-- What the absorb family leaves is an absorbing phase (R27, R135). -/
theorem AbsorbsApartFromZ.absorbing_eq_true {f : Engine → Engine} (hf : AbsorbsApartFromZ f) (e : Engine) :
    absorbing (f e) = true := decide_eq_true (hf.counts e)

/-! The bytes of a number -/

theorem leastByte_toNat (m : Nat) : (leastByte m).toNat = m % 256 := BitVec.toNat_ofNat m 8

/-- With enough fuel, the loop of R132 gives the base-256 digits of a number that is not zero. -/
theorem numberBytesFuel_digits {fuel m : Nat} (hm : m ≠ 0) (hfuel : m ≤ fuel) :
    (numberBytesFuel fuel m).map BitVec.toNat = Nat.digits 256 m := by
  induction fuel generalizing m with
  | zero => exact absurd (Nat.le_zero.1 hfuel) hm
  | succ fuel ih =>
    rw [numberBytesFuel, Nat.digits_def' (by decide) (Nat.pos_of_ne_zero hm), List.map_cons, leastByte_toNat]
    split
    · rw [‹m / 256 = 0›, Nat.digits_zero, List.map_nil]
    · rw [ih ‹_› (by omega)]

/-- The bytes of a number that is not zero are its base-256 digits, least significant first (R132). -/
theorem numberBytes_digits {n : Nat} (hn : n ≠ 0) : (numberBytes n).map BitVec.toNat = Nat.digits 256 n :=
  numberBytesFuel_digits hn le_rfl

theorem numberBytes_zero : numberBytes 0 = [0] := rfl

/-- The bytes of a number are a base-256 encoding of it (R132). -/
theorem foldr_numberBytes (n : Nat) : (numberBytes n).foldr (fun b m => b.toNat + 256 * m) 0 = n := by
  by_cases hn : n = 0
  · rw [hn]; rfl
  · calc (numberBytes n).foldr (fun b m => b.toNat + 256 * m) 0
        = ((numberBytes n).map BitVec.toNat).foldr (fun d m => d + 256 * m) 0 := by rw [List.foldr_map]
      _ = Nat.ofDigits 256 (Nat.digits 256 n) := by rw [numberBytes_digits hn, Nat.ofDigits_eq_foldr]; rfl
      _ = n := Nat.ofDigits_digits 256 n

/-- The high byte of a number that is not zero is not zero (R132). -/
theorem getLast?_numberBytes_ne_zero {n : Nat} (hn : n ≠ 0) : (numberBytes n).getLast? ≠ some 0 := by
  intro h
  have hdigit : (Nat.digits 256 n).getLast? = some 0 := by rw [← numberBytes_digits hn, List.getLast?_map, h]; rfl
  rw [List.getLast?_eq_some_getLast (Nat.digits_ne_nil_iff_ne_zero.2 hn)] at hdigit
  exact Nat.getLast_digit_ne_zero 256 hn (Option.some.inj hdigit)

/-- How many bytes a number has (R132). -/
theorem length_numberBytes (n : Nat) : (numberBytes n).length = Nat.log 256 n + 1 := by
  by_cases hn : n = 0
  · rw [hn, Nat.log_zero_right]; rfl
  · rw [← List.length_map BitVec.toNat, numberBytes_digits hn, Nat.length_digits 256 n (by decide) hn]

/-- A number of at least k + 1 digits and no more has k + 1 bytes (R132). -/
theorem length_numberBytes_of_range {n k : Nat} (hlo : 256 ^ k ≤ n) (hhi : n < 256 ^ (k + 1)) :
    (numberBytes n).length = k + 1 := by
  rw [length_numberBytes, Nat.log_eq_of_pow_le_of_lt_pow hlo hhi]

/-! Sequences of commands -/

/-- A command that answers next hands its state to the rest of the sequence (R55). -/
theorem execAll_cons {i : Instr} {s t : State} (h : exec i s = .next t) (is : List Instr) :
    execAll (i :: is) s = execAll is t := by
  rw [execAll, h]

theorem execAll_singleton (i : Instr) (s : State) : execAll [i] s = exec i s := by
  obtain ⟨t, ht⟩ := exec_next i s
  rw [execAll_cons ht, ht]
  rfl

theorem sourceAbsorb_nil (s : State) : sourceAbsorb [] s = s := ite_self s

/-- The source's absorb of a first byte and of the rest (R133, R204). -/
theorem sourceAbsorb_cons (b : Byte) (bs : List Byte) (s : State) :
    sourceAbsorb (b :: bs) s = sourceAbsorb bs (sourceAbsorb [b] s) := by
  cases herr : s.err with
  | true => simp only [sourceAbsorb, unlessHeld_held, herr]
  | false => simp only [sourceAbsorb, unlessHeld_clear, herr, absorbBytes]

/-- ABSORB of each byte is the source's absorb of them all (R133). -/
theorem execAll_map_absorb (bs : List Byte) (s : State) :
    execAll (bs.map .absorb) s = .next (sourceAbsorb bs s) := by
  induction bs generalizing s with
  | nil => rw [List.map_nil, execAll, sourceAbsorb_nil]
  | cons b bs ih =>
    have hfirst : exec (.absorb b) s = .next (sourceAbsorb [b] s) := rfl
    rw [List.map_cons, execAll_cons hfirst, ih, sourceAbsorb_cons b bs]

/-- ABSORB_NUMBER is the source's absorb of the number's bytes (R132). -/
theorem exec_absorbNumber_eq_sourceAbsorb (n : Nat) (s : State) :
    exec (.absorbNumber n) s = .next (sourceAbsorb (numberBytes n) s) := execAbsorbNumber_eq n s

/-! The statements -/

/-- Settles O38: two exchanges while there is room; at a = 127 and a = 128 the forced shuffle leaves a = 0. -/
theorem absorbSwapsBothNibbles : Obligations.AbsorbSwapsBothNibbles := by
  refine ⟨fun w hop => ?_, fun s b herr hwf => ?_⟩
  · rw [decode_of_opcode (op := .absorb) hop, decodeArg, argAboveByte_argField, argByte_argField]
    exact (ite_and _ _ _ _).symm
  have hfamily := absorbsApartFromZ_absorbByte b
  rw [← nibbleIndex_lowNibble, ← nibbleIndex_highNibble]
  refine ⟨{ s with engine := absorbByte b s.engine }, by rw [execAbsorb_eq, unlessHeld_clear _ _ herr], rfl,
    hfamily.z _, hfamily.absorbing_eq_true _, fun ha => absorbByte_of_room ha hwf b, fun ha => ?_, fun ha => ?_⟩
  · rw [absorbByte_of_last ha b]
    exact absorbNibble_of_zero (shuffle_a _) (wf_shuffle (Memory.wf_swap hwf _ _)) _
  · rw [absorbByte_of_full ha b]
    exact absorbByte_of_zero (shuffle_a _) (wf_shuffle hwf) b

/-- Settles O39: with room the stop counts alone, and at a = 128 it counts from the shuffle's a = 0. -/
theorem absorbStopCountsWithoutASwap : Obligations.AbsorbStopCountsWithoutASwap := by
  refine ⟨fun w hop => ?_, fun s herr => ?_⟩
  · rw [decode_of_opcode (op := .absorbStop) hop, decodeArg, ← ite_and]
    exact if_congr (belowOpcode_eq_zero_iff w).symm rfl rfl
  refine ⟨{ s with engine := absorbStop s.engine }, by rw [execAbsorbStop_eq, unlessHeld_clear _ _ herr], rfl,
    absorbsApartFromZ_absorbStop.absorbing_eq_true _, fun ha => ⟨?_, ?_⟩, absorbStop_of_full⟩
  · exact (countNibble_makeRoom s.engine).trans (if_neg (by omega))
  · rw [absorbStop_of_lt ha]
    rfl

/-- Settles O40, with the bytes of R132's loop: the base-256 digits of the number, or one zero byte. -/
theorem absorbNumberAbsorbsItsMinimalBytes : Obligations.AbsorbNumberAbsorbsItsMinimalBytes := by
  refine ⟨fun w hop => decode_of_opcode (op := .absorbNumber) hop, fun s n herr => ?_⟩
  obtain ⟨b, bs, hbytes⟩ := exists_numberBytes_eq_cons n
  have habsorbing : absorbing (sourceAbsorb (numberBytes n) s).engine = true := by
    rw [sourceAbsorb, unlessHeld_clear _ _ herr, hbytes]
    exact (absorbsApartFromZ_absorbBytes b bs).absorbing_eq_true _
  exact ⟨numberBytes n, sourceAbsorb (numberBytes n) s, exec_absorbNumber_eq_sourceAbsorb n s,
    execAll_map_absorb _ s, habsorbing, foldr_numberBytes n, fun hn => by rw [hn, numberBytes_zero],
    fun hn => ⟨by rw [hbytes]; exact List.cons_ne_nil b bs, getLast?_numberBytes_ne_zero hn⟩,
    fun hn => by rw [length_numberBytes, Nat.log_of_lt (by omega)],
    fun hlo hhi => length_numberBytes_of_range (k := 1) (by omega) (by omega),
    fun hlo hhi => length_numberBytes_of_range (k := 2) (by omega) (by omega),
    fun hlo hhi => length_numberBytes_of_range (k := 3) (by omega) (by omega)⟩

/-- Settles O48, byte by byte. -/
theorem absorbBytesIsTheSourcesAbsorb : Obligations.AbsorbBytesIsTheSourcesAbsorb :=
  fun s bytes => ⟨execAll_map_absorb bytes s, fun h => by rw [h]; rfl⟩

/-- Settles O49: a number one word can spell expands to its command, any other to ABSORB of each of its bytes. -/
theorem absorbNumberWideIsTheSourcesLoop : Obligations.AbsorbNumberWideIsTheSourcesLoop := by
  intro s n
  have hbytes : execAll ((numberBytes n).map .absorb) s = exec (.absorbNumber n) s :=
    (execAll_map_absorb _ s).trans (exec_absorbNumber_eq_sourceAbsorb n s).symm
  by_cases hn : n ≤ maxArg
  · have hexpand : expand (.absorbNumberWide n) = [.absorbNumber n] := if_pos hn
    have hfits : n < 2 ^ 32 := Nat.lt_succ_of_le hn
    rw [hexpand]
    exact ⟨execAll_singleton _ s, hbytes, List.forall_mem_singleton.2 (decide_eq_true hfits)⟩
  · have hexpand : expand (.absorbNumberWide n) = (numberBytes n).map .absorb := if_neg hn
    rw [hexpand]
    exact ⟨hbytes, hbytes, List.forall_mem_map.2 fun _ _ => rfl⟩

end Sys2Proof.Machine
end

section
/-! SUPPORT. The statements of 42_squeeze_family.md. -/

namespace Sys2Proof.Machine

/-! The drips of a squeeze -/

theorem dripOne_iterate_a (n : Nat) (e : Engine) : (dripOne^[n] e).a = e.a := by
  rw [dripOne_iterate_eq, update_a]

theorem dripOne_iterate_w (n : Nat) (e : Engine) : (dripOne^[n] e).w = e.w := by
  rw [dripOne_iterate_eq, update_w]

theorem dripOne_iterate_i (n : Nat) (e : Engine) : (dripOne^[n] e).i = e.i + BitVec.ofNat 8 n * e.w := by
  rw [dripOne_iterate_eq, update_i]

/-- Each byte XORed with the z of its own drip, left to right (R151, R152). -/
def xorDrips : List Byte → Engine → List Byte
  | [], _ => []
  | d :: ds, e => (d ^^^ (dripOne e).z) :: xorDrips ds (dripOne e)

theorem length_xorDrips (ds : List Byte) (e : Engine) : (xorDrips ds e).length = ds.length := by
  induction ds generalizing e with
  | nil => rfl
  | cons d ds ih => rw [xorDrips, List.length_cons, List.length_cons, ih]

/-- The same drips applied twice restore every byte (R151). -/
theorem xorDrips_xorDrips (ds : List Byte) (e : Engine) : xorDrips (xorDrips ds e) e = ds := by
  induction ds generalizing e with
  | nil => rfl
  | cons d ds ih => rw [xorDrips, xorDrips, xor_cancel_right, ih]

/-- Everything a drip and XOR per byte do: as many drips on the engine, and their bytes at the tail of OUTQ (R152). -/
theorem dripXors_eq (ds : List Byte) (s : State) :
    dripXors ds s =
      { s with engine := dripOne^[ds.length] s.engine, outq := s.outq ++ xorDrips ds s.engine } := by
  induction ds generalizing s with
  | nil => simp [dripXors, xorDrips]
  | cons d ds ih =>
    rw [dripXors, ih]
    simp [dripXor, emit, xorDrips]

/-- XOR with 0 emits the keystream byte itself (R151). -/
theorem dripXor_zero (s : State) : dripXor 0 s = drip s := by
  simp [dripXor, drip]

/-! The phase check -/

@[simp] theorem finishAbsorbing_a (e : Engine) : (finishAbsorbing e).a = 0 := by
  by_cases ha : 0 < e.a.val
  · rw [finishAbsorbing_pos ha, shuffle_a]
  · have hzero : e.a.val = 0 := by omega
    rw [finishAbsorbing_zero hzero]
    exact Fin.ext hzero

theorem finishAbsorbing_i (e : Engine) : (finishAbsorbing e).i = e.i := by
  rw [finishAbsorbing_eq, apply_ite Engine.i, shuffle_i, ite_self]

theorem finishAbsorbing_w (e : Engine) : (finishAbsorbing e).w = if e.a.val > 0 then e.w + 6 else e.w := by
  rw [finishAbsorbing_eq, apply_ite Engine.w, shuffle_w]

/-- A squeeze whose drips are `f`: nothing while ERR = 1, otherwise the phase check and then `f` (R150 to R152,
R204). -/
def squeezeWith (f : State → State) (s : State) : State :=
  unlessHeld s (f { s with engine := finishAbsorbing s.engine })

theorem exec_squeeze (n : Nat) (s : State) : exec (.squeeze n) s = .next (squeezeWith (drips n) s) := execSqueeze_eq n s

theorem exec_squeezeXor (d : Byte) (s : State) : exec (.squeezeXor d) s = .next (squeezeWith (dripXors [d]) s) :=
  execSqueezeXor_eq d s

theorem sourceSqueezeXor_eq (buffer : List Byte) (s : State) :
    sourceSqueezeXor buffer s = squeezeWith (dripXors buffer) s := rfl

/-- Drips leave ERR and a (R108, R150), so that a command after them finds the phase check already made. -/
structure KeepsErrAndA (f : State → State) : Prop where
  err : ∀ s, (f s).err = s.err
  a : ∀ s, (f s).engine.a = s.engine.a

theorem keepsErrAndA_drips (n : Nat) : KeepsErrAndA (drips n) where
  err s := (drips_frame n s).1
  a s := by rw [drips_eq]; exact dripOne_iterate_a n s.engine

theorem keepsErrAndA_dripXors (ds : List Byte) : KeepsErrAndA (dripXors ds) where
  err s := by rw [dripXors_eq]
  a s := by rw [dripXors_eq]; exact dripOne_iterate_a ds.length s.engine

/-- Two squeezes in a row make one phase check: the second finds a = 0 (R153). -/
theorem squeezeWith_squeezeWith {f : State → State} (hf : KeepsErrAndA f) (g : State → State) (s : State) :
    squeezeWith g (squeezeWith f s) = squeezeWith (fun r => g (f r)) s := by
  cases herr : s.err with
  | true => simp only [squeezeWith, unlessHeld_held, herr]
  | false =>
    have hfirst : squeezeWith f s = f { s with engine := finishAbsorbing s.engine } := unlessHeld_clear _ _ herr
    have herr' : (squeezeWith f s).err = false := by rw [hfirst, hf.err, herr]
    have ha : (squeezeWith f s).engine.a = 0 := by rw [hfirst, hf.a, finishAbsorbing_a]
    have hcheck : finishAbsorbing (squeezeWith f s).engine = (squeezeWith f s).engine :=
      finishAbsorbing_zero (congrArg Fin.val ha)
    rw [squeezeWith, unlessHeld_clear _ _ herr', hcheck, hfirst, squeezeWith, unlessHeld_clear _ _ herr]

/-! Sequences of squeezes -/

/-- After SQUEEZE p, SQUEEZE q gives what SQUEEZE (p + q) gives (R153). -/
theorem exec_squeeze_squeezeWith (p q : Nat) (s : State) :
    exec (.squeeze q) (squeezeWith (drips p) s) = exec (.squeeze (p + q)) s := by
  have hdrips : (fun r => drips q (drips p r)) = drips (p + q) := funext fun r => (drips_add p q r).symm
  rw [exec_squeeze, squeezeWith_squeezeWith (keepsErrAndA_drips p), hdrips, exec_squeeze]

/-- m times SQUEEZE p, then SQUEEZE q, add up (R153). -/
theorem execAll_replicate_squeeze (m p q : Nat) (s : State) :
    execAll (List.replicate m (.squeeze p) ++ [.squeeze q]) s = exec (.squeeze (m * p + q)) s := by
  induction m generalizing s with
  | zero => rw [List.replicate_zero, List.nil_append, execAll_singleton, Nat.zero_mul, Nat.zero_add]
  | succ m ih =>
    have hcount : p + (m * p + q) = (m + 1) * p + q := by ring
    rw [List.replicate_succ, List.cons_append, execAll_cons (exec_squeeze p s), ih, exec_squeeze_squeezeWith, hcount]

/-- SQUEEZE_XOR of each byte of a buffer that is not empty is the source's call on it (R152). -/
theorem execAll_map_squeezeXor (d : Byte) (ds : List Byte) (s : State) :
    execAll ((d :: ds).map .squeezeXor) s = .next (sourceSqueezeXor (d :: ds) s) := by
  rw [List.map_cons, execAll_cons (exec_squeezeXor d s), sourceSqueezeXor_eq]
  induction ds generalizing d s with
  | nil => rfl
  | cons d' ds ih =>
    rw [List.map_cons, execAll_cons (exec_squeezeXor d' _), ih, squeezeWith_squeezeWith (keepsErrAndA_dripXors [d])]
    rfl

/-- With ERR = 0 the source's call writes the engine and OUTQ: the phase check and its drips (R152). -/
theorem sourceSqueezeXor_clear (buffer : List Byte) {s : State} (herr : s.err = false) :
    sourceSqueezeXor buffer s =
      { s with
        engine := dripOne^[buffer.length] (finishAbsorbing s.engine)
        outq := s.outq ++ xorDrips buffer (finishAbsorbing s.engine) } := by
  rw [sourceSqueezeXor, unlessHeld_clear _ _ herr, dripXors_eq]

/-- Bytes for every position replace the whole buffer (R60, R152). -/
theorem writeBack_of_length_eq {buffer bytes : List Byte} (h : bytes.length = buffer.length) :
    writeBack buffer bytes = bytes := by
  induction buffer generalizing bytes with
  | nil => rw [List.eq_nil_of_length_eq_zero h]; rfl
  | cons d buffer ih =>
    cases bytes with
    | nil => cases h
    | cons b bytes => rw [writeBack, ih (Nat.succ.inj h)]

/-! The statements -/

/-- Settles O41: the drips of R150 after the one phase check; a drip leaves a and w and advances i by w. -/
theorem squeezeEmitsSuccessiveDrips : Obligations.SqueezeEmitsSuccessiveDrips := by
  refine ⟨fun w hop => decode_of_opcode (op := .squeeze) hop, fun s n herr => ?_, ?_⟩
  · rw [← finishAbsorbing_eq, ← finishAbsorbing_w]
    refine ⟨drips n { s with engine := finishAbsorbing s.engine },
      by rw [execSqueeze_eq, unlessHeld_clear _ _ herr], ?_⟩
    rw [drips_eq]
    refine ⟨rfl, rfl, rfl, ?_, dripOne_iterate_w n _, ?_⟩
    · exact (dripOne_iterate_a n _).trans (finishAbsorbing_a _)
    · exact (dripOne_iterate_i n _).trans (by rw [finishAbsorbing_i, dripOne_iterate_w])
  · rw [execSqueeze_eq]
    exact congrArg Host.Outcome.next (by decide)

/-- Settles O42: one drip after the phase check; XOR with 0, or twice with one byte, is what R151 says. -/
theorem squeezeXorIsSqueezeOneXored : Obligations.SqueezeXorIsSqueezeOneXored := by
  refine ⟨fun w hop => ?_, fun s herr => ?_⟩
  · rw [decode_of_opcode (op := .squeezeXor) hop, decodeArg, argAboveByte_argField, argByte_argField]
    exact (ite_and _ _ _ _).symm
  rw [← finishAbsorbing_eq]
  have hexec (d : Byte) : exec (.squeezeXor d) s = .next { s with
      engine := dripOne (finishAbsorbing s.engine)
      outq := s.outq ++ [d ^^^ (dripOne (finishAbsorbing s.engine)).z] } := by
    rw [execSqueezeXor_eq, unlessHeld_clear _ _ herr, dripXor, emit]
  refine ⟨hexec, ?_, ?_, fun d => ?_⟩
  · rw [absorbing, dripOne_a, finishAbsorbing_a]
    rfl
  · rw [execSqueezeXor_eq, dripXor_zero, execSqueeze_eq, drips, drips]
  · rw [hexec, xor_cancel_right]

/-- Settles O43: the second command finds a = 0, and the wide split is a run of such commands. -/
theorem consecutiveSqueezesAddUp : Obligations.ConsecutiveSqueezesAddUp := by
  refine ⟨fun s p q => ?_, fun s n => ?_⟩
  · rw [execAll_cons (exec_squeeze p s), execAll_singleton, exec_squeeze_squeezeWith]
  by_cases hn : n ≤ maxArg
  · have hexpand : expand (.squeezeWide n) = [.squeeze n] := if_pos hn
    have hfits : n < 2 ^ 32 := Nat.lt_succ_of_le hn
    rw [hexpand]
    exact ⟨execAll_singleton _ s, List.forall_mem_singleton.2 (decide_eq_true hfits)⟩
  · have hexpand : expand (.squeezeWide n) =
        List.replicate (n / maxArg) (.squeeze maxArg) ++ [.squeeze (n % maxArg)] := if_neg hn
    have hrest : n % maxArg < 2 ^ 32 := (Nat.mod_lt n (by decide)).trans (by decide)
    rw [hexpand]
    refine ⟨by rw [execAll_replicate_squeeze, Nat.div_add_mod'], List.forall_mem_append.2 ⟨fun i hi => ?_, ?_⟩⟩
    · rw [List.eq_of_mem_replicate hi]
      decide
    · exact List.forall_mem_singleton.2 (decide_eq_true hrest)

/-- Settles O50: the empty buffer is SQUEEZE 0, any other SQUEEZE_XOR of each byte. -/
theorem squeezeXorBufIsTheSourcesCall : Obligations.SqueezeXorBufIsTheSourcesCall := by
  refine fun s buffer => ⟨?_, fun herr => ?_⟩
  · cases buffer with
    | nil => exact execAll_singleton (.squeeze 0) s
    | cons d ds => exact execAll_map_squeezeXor d ds s
  · have hlength := length_xorDrips buffer (finishAbsorbing s.engine)
    rw [sourceSqueezeXor_clear buffer herr]
    exact ⟨xorDrips buffer (finishAbsorbing s.engine), rfl, hlength, writeBack_of_length_eq hlength⟩

/-- Settles O51: both halves XOR with the drips of one engine. -/
theorem squeezeXorDecryptsWhatItEncrypts : Obligations.SqueezeXorDecryptsWhatItEncrypts := by
  intro s plain herr
  cases plain with
  | nil => exact ⟨s, s, [], rfl, (List.append_nil _).symm, rfl, rfl, (List.append_nil _).symm, rfl⟩
  | cons d ds =>
    have hlength := length_xorDrips (d :: ds) (finishAbsorbing s.engine)
    refine ⟨_, _, xorDrips (d :: ds) (finishAbsorbing s.engine), execAll_map_squeezeXor d ds s, ?_, hlength,
      execAll_map_squeezeXor _ _ s, ?_, ?_⟩
    · rw [sourceSqueezeXor_clear _ herr]
    · rw [sourceSqueezeXor_clear _ herr, ← xorDrips, xorDrips_xorDrips]
    · rw [sourceSqueezeXor_clear _ herr, sourceSqueezeXor_clear _ herr, ← xorDrips, hlength]

/-- Settles O44: the phase check of SQUEEZE 0 alone. -/
theorem squeezeZeroStillShuffles : Obligations.SqueezeZeroStillShuffles := by
  intro s herr
  have hexec : exec (.squeeze 0) s = .next { s with engine := finishAbsorbing s.engine } := by
    rw [execSqueeze_eq, unlessHeld_clear _ _ herr, drips]
  exact ⟨fun ha => by rw [hexec, finishAbsorbing_pos ha], fun ha => by rw [hexec, finishAbsorbing_zero ha],
    execAll_singleton (.squeeze 0) s⟩

end Sys2Proof.Machine
end

section
/-! SUPPORT. The statements of 43_control.md. -/

namespace Sys2Proof.Machine

/-! The word of RESET -/

/-- The only legal word with the opcode 0x01 is RESET's own (R77, R170). -/
theorem decode_of_resetOpcode {w : CmdWord} (hop : opField w = Opcode.reset.value) (hne : w ≠ encode .reset) :
    decode w = .illegal .reservedBits := by
  obtain ⟨hop', hrsv', harg'⟩ := Laws.formatC_fields .reset 0#32
  rw [decode_of_opcode hop, decodeArg]
  by_cases hrsv : rsvField w = 0#24
  · have harg : argField w ≠ 0#32 := fun harg =>
      hne (word_eq_iff.2 ⟨hop.trans hop'.symm, hrsv.trans hrsv'.symm, harg.trans harg'.symm⟩)
    rw [if_pos hrsv, if_neg harg]
  · rw [if_neg hrsv]

/-! Commands while no error stands -/

/-- `s` with no error, the engine `e`, and `bytes` emitted after those that wait. -/
def State.clearWith (s : State) (e : Engine) (bytes : List Byte) : State :=
  { s with engine := e, err := false, errCode := none, outq := s.outq ++ bytes }

/-- A later engine replaces the earlier one, and its bytes come after. -/
theorem State.clearWith_clearWith (s : State) (e e' : Engine) (bytes new : List Byte) :
    (s.clearWith e bytes).clearWith e' new = s.clearWith e' (bytes ++ new) := by
  rw [State.clearWith, State.clearWith, State.clearWith, List.append_assoc]

/-- RESET leaves the canonical engine and no error, and emits nothing (R170). -/
theorem exec_reset_eq_clearWith (s : State) : exec .reset s = .next (s.clearWith Engine.canonical []) := by
  rw [execReset_eq, State.clearWith, List.append_nil, clearError]

/-- While no error stands, a command that is a function on the engine writes the engine alone (R130 to R132). -/
theorem exec_clearWith_of_engine {i : Instr} {f : Engine → Engine}
    (hexec : ∀ s, exec i s = .next (unlessHeld s { s with engine := f s.engine })) (e : Engine) :
    ∃ e' new, ∀ (s : State) (bytes : List Byte),
      exec i (s.clearWith e bytes) = .next (s.clearWith e' (bytes ++ new)) := by
  refine ⟨f e, [], fun s bytes => ?_⟩
  rw [hexec, unlessHeld_clear _ _ rfl, List.append_nil]
  rfl

/-- While no error stands, the engine a command leaves and the bytes it emits depend on the engine alone (R130 to R132,
R150, R151, R170). -/
theorem exec_clearWith (i : Instr) (e : Engine) :
    ∃ e' new, ∀ (s : State) (bytes : List Byte),
      exec i (s.clearWith e bytes) = .next (s.clearWith e' (bytes ++ new)) := by
  cases i with
  | reset =>
    exact ⟨Engine.canonical, [], fun s bytes => by rw [exec_reset_eq_clearWith, State.clearWith_clearWith]⟩
  | absorb b => exact exec_clearWith_of_engine (execAbsorb_eq b) e
  | absorbStop => exact exec_clearWith_of_engine execAbsorbStop_eq e
  | absorbNumber n => exact exec_clearWith_of_engine (execAbsorbNumber_eq n) e
  | squeeze n =>
    refine ⟨dripOne^[n] (finishAbsorbing e), (List.range n).map fun m => (dripOne^[m + 1] (finishAbsorbing e)).z,
      fun s bytes => ?_⟩
    rw [execSqueeze_eq, unlessHeld_clear _ _ rfl, drips_eq, ← State.clearWith_clearWith s (finishAbsorbing e)]
    rfl
  | squeezeXor d =>
    refine ⟨dripOne (finishAbsorbing e), [d ^^^ (dripOne (finishAbsorbing e)).z], fun s bytes => ?_⟩
    rw [execSqueezeXor_eq, unlessHeld_clear _ _ rfl, ← State.clearWith_clearWith s (finishAbsorbing e)]
    rfl

/-- So do the engine and the bytes of a sequence of commands (R55). -/
theorem execAll_clearWith (is : List Instr) (e : Engine) :
    ∃ e' new, ∀ (s : State) (bytes : List Byte),
      execAll is (s.clearWith e bytes) = .next (s.clearWith e' (bytes ++ new)) := by
  induction is generalizing e with
  | nil => exact ⟨e, [], fun s bytes => by rw [execAll, List.append_nil]⟩
  | cons i is ih =>
    obtain ⟨e₁, new₁, hfirst⟩ := exec_clearWith i e
    obtain ⟨e₂, new₂, hrest⟩ := ih e₁
    exact ⟨e₂, new₁ ++ new₂, fun s bytes => by rw [execAll_cons (hfirst s bytes), hrest, List.append_assoc]⟩

/-! The statements -/

/-- Settles O36: RESET writes the canonical engine and clears the error; the example is the first drip of R106. -/
theorem resetCommandRestoresTheCanonicalState : Obligations.ResetCommandRestoresTheCanonicalState := by
  refine ⟨fun s => ?_, fun w hop hne => decode_of_resetOpcode hop hne, fun s => ?_⟩
  · refine ⟨clearError { s with engine := Engine.canonical }, execReset_eq s, Memory.read_nil,
      rfl, rfl, rfl, rfl, rfl, rfl, rfl, rfl, rfl, rfl, fun he herr hcode => ?_⟩
    rw [clearError, ← he, ← herr, ← hcode]
  · have hdrip : (dripOne Engine.canonical).z = 0x04 := by rw [dripOneFollowsItsPseudocode.2]
    refine ⟨drip (s.clearWith Engine.canonical []), ?_, ?_⟩
    · rw [execAll_cons (exec_reset_eq_clearWith s), execAll_singleton, execSqueeze_eq, unlessHeld_clear _ _ rfl]
      rfl
    · rw [drip, emit, State.clearWith, List.append_nil, hdrip]

/-- Settles O37: after RESET both runs go on from the canonical engine with no error. -/
theorem resetForgetsAllHistory : Obligations.ResetForgetsAllHistory := by
  intro s₁ s₂ commands
  obtain ⟨e, bytes, hrun⟩ := execAll_clearWith commands Engine.canonical
  have hreset (s : State) : execAll (.reset :: commands) s = .next (s.clearWith e bytes) :=
    (execAll_cons (exec_reset_eq_clearWith s) commands).trans (hrun s [])
  exact ⟨s₁.clearWith e bytes, s₂.clearWith e bytes, bytes, hreset s₁, hreset s₂, rfl, rfl, rfl, rfl, rfl, rfl⟩

end Sys2Proof.Machine
end

section
/-! SUPPORT. The statements of 60_exceptions.md. -/

namespace Sys2Proof.Machine

/-! Which words are illegal, and with which code -/

/-- The opcodes outside the table are 0x00 and those from 0x07 on (R76). -/
theorem opcodeOf_eq_none_iff_range {b : Byte} : opcodeOf b = none ↔ b = 0x00#8 ∨ 0x07#8 ≤ b := by
  revert b
  decide

/-- The defined opcodes are 0x01 to 0x06 (R76). -/
theorem opcode_value_range (op : Opcode) : 0x01#8 ≤ op.value ∧ op.value ≤ 0x06#8 := by
  cases op <;> decide

/-- A verdict with one condition is illegal exactly when the condition fails (R78). -/
theorem illegal_if_eq_iff {c : Prop} [Decidable c] {i : Instr} {code code' : IllegalCode} :
    (if c then Verdict.legal i else .illegal code) = .illegal code' ↔ code' = code ∧ ¬ c := by
  split <;> simp [*, eq_comm]

/-- An argument with a must-be-zero bit set is RESERVED_BITS: any bit of RESET's and ABSORB_STOP's, a bit above the low
byte of ABSORB's and SQUEEZE_XOR's, none of the others' (R77, R202). -/
theorem decodeArg_eq_illegal_iff {op : Opcode} {arg : Arg} {code : IllegalCode} :
    decodeArg op arg = .illegal code ↔ code = .reservedBits ∧
      ((op.value = 0x01#8 ∨ op.value = 0x03#8) ∧ arg ≠ 0 ∨
        (op.value = 0x02#8 ∨ op.value = 0x06#8) ∧ argAboveByte arg ≠ 0) := by
  cases op with
  | reset | absorb | absorbStop | squeezeXor => simp [decodeArg, illegal_if_eq_iff, Opcode.value]
  | absorbNumber | squeeze => simp [decodeArg, Opcode.value]

/-- A word is ILLEGAL_OPCODE exactly when its opcode is outside the table (R202, R203). -/
theorem decode_eq_illegalOpcode_iff {w : CmdWord} :
    decode w = .illegal .illegalOpcode ↔ opcodeOf (opField w) = none := by
  refine ⟨fun h => ?_, decode_of_undefined⟩
  by_contra hdefined
  obtain ⟨op, hop⟩ := Option.ne_none_iff_exists'.1 hdefined
  rw [decode_of_opcode (opcodeOf_eq_some_iff.1 hop)] at h
  split at h
  · simp [decodeArg_eq_illegal_iff] at h
  · cases h

/-- A word is RESERVED_BITS exactly when its opcode is defined and a must-be-zero bit of `rsv` or of its argument is set
(R77, R202). -/
theorem decode_eq_reservedBits_iff {w : CmdWord} :
    decode w = .illegal .reservedBits ↔
      ∃ op : Opcode, opField w = op.value ∧
        (rsvField w ≠ 0 ∨ decodeArg op (argField w) = .illegal .reservedBits) := by
  constructor
  · intro h
    cases hop : opcodeOf (opField w) with
    | none => simp [decode_of_undefined hop] at h
    | some op =>
      rw [opcodeOf_eq_some_iff] at hop
      refine ⟨op, hop, or_iff_not_imp_left.2 fun hrsv => ?_⟩
      rwa [← decode_of_fields hop (not_not.1 hrsv)]
  · rintro ⟨op, hop, hset⟩
    rw [decode_of_opcode hop]
    split
    next hrsv => exact hset.resolve_left (not_not.2 hrsv)
    next => rfl

/-- RESERVED_BITS by the fields: the opcode is 0x01 to 0x06, and a must-be-zero bit of R77's table is set. -/
theorem decode_eq_reservedBits_iff_fields {w : CmdWord} :
    decode w = .illegal .reservedBits ↔
      0x01#8 ≤ opField w ∧ opField w ≤ 0x06#8 ∧ (rsvField w ≠ 0 ∨
        (opField w = 0x01#8 ∨ opField w = 0x03#8) ∧ argField w ≠ 0 ∨
        (opField w = 0x02#8 ∨ opField w = 0x06#8) ∧ argAboveByte (argField w) ≠ 0) := by
  rw [decode_eq_reservedBits_iff]
  constructor
  · rintro ⟨op, hop, hset⟩
    obtain ⟨hlo, hhi⟩ := opcode_value_range op
    simpa [hop, hlo, hhi, decodeArg_eq_illegal_iff] using hset
  · rintro ⟨hlo, hhi, hset⟩
    have hdefined : opcodeOf (opField w) ≠ none := by
      rw [ne_eq, opcodeOf_eq_none_iff_range]
      bv_omega
    obtain ⟨op, hop⟩ := Option.ne_none_iff_exists'.1 hdefined
    rw [opcodeOf_eq_some_iff] at hop
    exact ⟨op, hop, by simpa [hop, decodeArg_eq_illegal_iff] using hset⟩

/-! What accepting a word does -/

/-- An illegal word takes the exception (R201). -/
theorem accept_illegal {w : CmdWord} {code : IllegalCode} (hd : decode w = .illegal code) (s : State) :
    accept w s = .next (raiseIllegal code s) := by
  simp [accept, hd]

/-- Accepting a word always answers a next state (R208). -/
theorem accept_next (w : CmdWord) (s : State) : ∃ t, accept w s = .next t := by
  cases hd : decode w with
  | legal i => exact accept_legal hd s ▸ exec_next i s
  | illegal code => exact ⟨_, accept_illegal hd s⟩

/-- While ERR = 1 a command other than RESET does nothing (R204). -/
theorem exec_held_of_ne_reset {i : Instr} {s : State} (herr : s.err = true) (hi : i ≠ .reset) :
    exec i s = .next s := by
  obtain ⟨t, ht⟩ := exec_next i s
  obtain rfl | ⟨hreset, -⟩ := exec_held ht herr
  · exact ht
  · exact absurd hreset hi

/-- While ERR = 1 a word other than a legal RESET does nothing (R204). -/
theorem accept_held {w : CmdWord} {s : State} (herr : s.err = true) (hd : decode w ≠ .legal .reset) :
    accept w s = .next s := by
  cases hw : decode w with
  | legal i =>
    rw [accept_legal hw]
    exact exec_held_of_ne_reset herr fun hi => hd (by rw [hw, hi])
  | illegal code => rw [accept_illegal hw, raiseIllegal_held _ _ herr]

/-! What one edge does -/

/-- The state the edge finds differs in the host's side alone: the drive is off the list, and a STATUS read is recorded
(R73). -/
theorem beginEdge_eq (d : HostDrive) (rest : List HostDrive) (s : State) :
    beginEdge d rest s =
      { s with
        host := rest
        statusReads := if d.readStatus then s.statusReads ++ [statusByte s] else s.statusReads
        statusDraws := if d.readStatus then s.statusDraws + 1 else s.statusDraws } := by
  cases h : d.readStatus <;> simp [beginEdge, sampleStatus, h]

/-- With nothing left to drive the machine stays as it is (log 1). -/
theorem step_of_no_drive {s : State} (hh : s.host = []) : step s = .next s := by
  simp [step, stepEdge, hh]

/-- An edge with `rst_n` = 0 is the hardware reset, whatever else is driven (R240). -/
theorem step_eq_hardReset {s : State} {d : HostDrive} {rest : List HostDrive} (hh : s.host = d :: rest)
    (hr : d.rstN = false) : step s = .next (hardReset (beginEdge d rest s)) := by
  simp [step, stepEdge, hh, edge, hr]

/-- An edge without reset at which a held word is not driven is refused (log 4). -/
theorem step_eq_refused {s : State} {d : HostDrive} {rest : List HostDrive} {w : CmdWord} (hh : s.host = d :: rest)
    (hr : d.rstN = true) (ho : s.offered = some w) (hw : d.cmd ≠ some w) : step s = .refused .offerChanged := by
  simp [step, stepEdge, hh, edge, hr, offerBroken, ho, hw]

theorem handshakes_no_word {d : HostDrive} (hw : d.cmd = none) (s : State) :
    handshakes d s = .next (transferOutput d.outReady s) := by
  simp [handshakes, hw]

/-- The two handshakes always answer a next state (R208). -/
theorem handshakes_next {d : HostDrive} (hr : d.rstN = true) (s : State) : ∃ t, handshakes d s = .next t := by
  by_cases hq : s.outq = []
  · cases hw : d.cmd with
    | none => exact ⟨_, handshakes_no_word hw s⟩
    | some w => exact handshakes_ready hw hr hq ▸ accept_next w _
  · obtain ⟨_, hedge, -⟩ := handshakes_busy (d := d) hq
    exact ⟨_, hedge⟩

/-- A step answers a next state when the next edge, if any, is a reset or drives any held word (R208). -/
theorem step_next {s : State}
    (hkept : ∀ d rest, s.host = d :: rest → d.rstN = true → s.offered = none ∨ s.offered = d.cmd) :
    ∃ t, step s = .next t := by
  cases hh : s.host with
  | nil => exact ⟨s, step_of_no_drive hh⟩
  | cons d rest =>
    cases hr : d.rstN with
    | false => exact ⟨_, step_eq_hardReset hh hr⟩
    | true => exact step_eq_handshakes hh hr (hkept d rest hh hr) ▸ handshakes_next hr _

/-! The statements -/

/-- Settles O8: the opcode, then the must-be-zero bits, decide the code; the edge accepts the word, whose exception
writes ERR and ERRCODE alone. -/
theorem illegalWordSetsErrorAndNothingElse : Obligations.IllegalWordSetsErrorAndNothingElse := by
  refine ⟨fun w => decode_eq_illegalOpcode_iff.trans opcodeOf_eq_none_iff_range, fun w => ?_,
    fun s d rest w code hh hr hw hq ho hd => ?_⟩
  · rw [← argAboveByte_argField]
    exact decode_eq_reservedBits_iff_fields
  · rw [← hw] at ho
    rw [step_eq_handshakes hh hr ho, handshakes_ready hw hr (by rwa [beginEdge_outq]), accept_illegal hd,
      raiseIllegal_frame, beginEdge_eq]

/-- Settles O20: every outcome of an edge but the refusal of a broken offer is a next state. -/
theorem stepStopsOnlyOnAChangedOffer : Obligations.StepStopsOnlyOnAChangedOffer := by
  intro s
  by_cases hchanged : ∃ d rest w, s.host = d :: rest ∧ d.rstN = true ∧ s.offered = some w ∧ d.cmd ≠ some w
  · obtain ⟨d, rest, w, hh, hr, ho, hw⟩ := hchanged
    exact .inr ⟨step_eq_refused hh hr ho hw, d, rest, w, hh, hr, ho, hw⟩
  · refine .inl ⟨step_next fun d rest hh hr => ?_, hchanged⟩
    cases ho : s.offered with
    | none => exact .inl rfl
    | some w => exact .inr (by_contra fun hw => hchanged ⟨d, rest, w, hh, hr, ho, Ne.symm hw⟩)

/-- Settles O9: the exception writes ERRCODE only if no error stands. -/
theorem firstIllegalCodeWins : Obligations.FirstIllegalCodeWins := by
  refine ⟨fun w hop => decode_of_undefined (opcodeOf_eq_none_iff.2 hop), fun s w code herr hd => ?_,
    fun s w code herr hd => ?_, fun s t w herr hd h => ?_⟩
  · rw [accept_illegal hd, raiseIllegal_clear _ _ herr]
  · rw [accept_illegal hd, raiseIllegal_held _ _ herr]
  · rw [accept_held herr hd] at h
    cases h
    exact ⟨herr, rfl⟩

/-- Settles O10: a legal RESET, or a word that is discarded. -/
theorem heldEngineDiscardsAllButReset : Obligations.HeldEngineDiscardsAllButReset := by
  intro s w herr
  split
  next hd => exact accept_legal hd s
  next hd => exact accept_held herr hd

/-- Settles O21: the drive is taken off the list, and the output handshake finds no byte. -/
theorem idleEngineKeepsItsState : Obligations.IdleEngineKeepsItsState := by
  refine fun s d rest => ⟨step_of_no_drive, fun hh hr hw hread ho hq => ?_⟩
  rw [step_eq_handshakes hh hr (.inl ho), handshakes_no_word hw, transferOutput_empty _ (by rwa [beginEdge_outq]),
    beginEdge_eq, hread]
  rfl

/-- Settles O52: a number that is not negative goes through `absorb_number.wide`. -/
theorem driverRejectsNegativeNumbers : Obligations.DriverRejectsNegativeNumbers := by
  refine ⟨fun n hn => if_pos hn, fun n s => ?_⟩
  obtain ⟨heffect, -⟩ := absorbNumberWideIsTheSourcesLoop s n
  exact ⟨expand (.absorbNumberWide n), if_neg (Int.natCast_nonneg n).not_gt, heffect⟩

end Sys2Proof.Machine
end

section
/-! SUPPORT. The statements of 70_reset_and_hazards.md. -/

namespace Sys2Proof.Machine

/-! The machine apart from who holds its bytes -/

theorem SameMachine.refl (s : State) : SameMachine s s := ⟨rfl, rfl, rfl, rfl⟩

theorem SameMachine.symm {s t : State} (h : SameMachine s t) : SameMachine t s :=
  ⟨h.engine.symm, h.err.symm, h.errCode.symm, h.bytes.symm⟩

theorem SameMachine.trans {s t u : State} (h : SameMachine s t) (h' : SameMachine t u) : SameMachine s u :=
  ⟨h'.engine.trans h.engine, h'.err.trans h.err, h'.errCode.trans h.errCode, h'.bytes.trans h.bytes⟩

section
variable {s u : State} (h : SameMachine s u)
include h

theorem SameMachine.withEngine (f : Engine → Engine) :
    SameMachine { s with engine := f s.engine } { u with engine := f u.engine } :=
  ⟨congrArg f h.engine, h.err, h.errCode, h.bytes⟩

theorem SameMachine.clearError : SameMachine (clearError s) (clearError u) := ⟨h.engine, rfl, rfl, h.bytes⟩

theorem SameMachine.emit {b b' : Byte} (hb : b' = b) : SameMachine (emit b s) (emit b' u) where
  engine := h.engine
  err := h.err
  errCode := h.errCode
  bytes := by simp only [emit_taken, emit_outq, ← List.append_assoc, h.bytes, hb]

theorem SameMachine.dripXor (d : Byte) : SameMachine (dripXor d s) (dripXor d u) :=
  (h.withEngine dripOne).emit (congrArg (fun e => d ^^^ (dripOne e).z) h.engine)

theorem SameMachine.raiseIllegal (code : IllegalCode) : SameMachine (raiseIllegal code s) (raiseIllegal code u) := by
  rw [raiseIllegal_frame, raiseIllegal_frame, h.err, h.errCode]
  exact ⟨h.engine, rfl, rfl, h.bytes⟩

/-- A held command is discarded in both states, a performed one performed in both (R204). -/
theorem SameMachine.unlessHeld {s' u' : State} (h' : SameMachine s' u') :
    SameMachine (unlessHeld s s') (unlessHeld u u') := by
  unfold Machine.unlessHeld
  rw [h.err]
  split
  · exact h
  · exact h'

end

theorem SameMachine.drips (n : Nat) {s u : State} (h : SameMachine s u) : SameMachine (drips n s) (drips n u) := by
  induction n generalizing s u with
  | zero => exact h
  | succ n ih => exact ih (dripXor_zero s ▸ dripXor_zero u ▸ h.dripXor 0)

/-- A command does the same to the same machine: no rule reads who holds the bytes (R253). -/
theorem SameMachine.exec {i : Instr} {s u s' u' : State} (h : SameMachine s u) (hs : exec i s = .next s')
    (hu : exec i u = .next u') : SameMachine s' u' := by
  cases i with
  | reset => cases hs; cases hu; exact (h.withEngine fun _ => Engine.canonical).clearError
  | absorb b => cases hs; cases hu; exact h.unlessHeld (h.withEngine (absorbByte b))
  | absorbStop => cases hs; cases hu; exact h.unlessHeld (h.withEngine absorbStop)
  | absorbNumber n => cases hs; cases hu; exact h.unlessHeld (h.withEngine (absorbBytes (numberBytes n)))
  | squeeze n => cases hs; cases hu; exact h.unlessHeld ((h.withEngine finishAbsorbing).drips n)
  | squeezeXor d => cases hs; cases hu; exact h.unlessHeld ((h.withEngine finishAbsorbing).dripXor d)

/-- An accepted word does the same to the same machine (R201, R253). -/
theorem SameMachine.accept {w : CmdWord} {s u s' u' : State} (h : SameMachine s u) (hs : accept w s = .next s')
    (hu : accept w u = .next u') : SameMachine s' u' := by
  cases hd : decode w with
  | legal i =>
    rw [accept_legal hd] at hs hu
    exact h.exec hs hu
  | illegal code =>
    rw [accept_illegal hd] at hs hu
    cases hs
    cases hu
    exact h.raiseIllegal code

/-! A run as the words it transfers -/

/-- `t` is, as a machine, what accepting the words in order makes of `s`; between two of them only who holds the bytes
may change (R253). -/
inductive AcceptsInOrder : List CmdWord → State → State → Prop
  | nil {s t : State} (same : SameMachine s t) : AcceptsInOrder [] s t
  | cons {w : CmdWord} {ws : List CmdWord} {s u v t : State} (same : SameMachine s u)
      (accepted : accept w u = .next v) (rest : AcceptsInOrder ws v t) : AcceptsInOrder (w :: ws) s t

theorem AcceptsInOrder.of_sameMachine {ws : List CmdWord} {s u t : State} (h : SameMachine s u)
    (hws : AcceptsInOrder ws u t) : AcceptsInOrder ws s t := by
  cases hws with
  | nil same => exact .nil (h.trans same)
  | cons same accepted rest => exact .cons (h.trans same) accepted rest

theorem AcceptsInOrder.append {ws ws' : List CmdWord} {s t u : State} (h : AcceptsInOrder ws s t)
    (h' : AcceptsInOrder ws' t u) : AcceptsInOrder (ws ++ ws') s u := by
  induction h with
  | nil same => exact h'.of_sameMachine same
  | cons same accepted _ ih => exact .cons same accepted (ih h')

/-- The words in order decide the machine they leave. -/
theorem AcceptsInOrder.sameMachine {ws : List CmdWord} {s s' t t' : State} (h : AcceptsInOrder ws s t)
    (h' : AcceptsInOrder ws s' t') (hs : SameMachine s s') : SameMachine t t' := by
  induction h generalizing s' with
  | nil same =>
    obtain ⟨same'⟩ := h'
    exact same.symm.trans (hs.trans same')
  | cons same accepted rest ih =>
    obtain _ | ⟨same', accepted', rest'⟩ := h'
    exact ih rest' ((same.symm.trans (hs.trans same')).accept accepted accepted')

/-- Every step takes one drive off the host's list, if there is one (log 1). -/
theorem step_host {s t : State} (h : step s = .next t) : t.host = s.host.tail := by
  obtain ⟨hh, ht⟩ | ⟨d, rest, hh, hedge⟩ := step_cases h
  · rw [ht, hh, List.tail_nil]
  rw [hh, List.tail_cons]
  obtain ⟨-, rfl⟩ | ⟨-, -, ⟨-, rfl⟩ | ⟨w, -, -, hacc⟩ | ⟨w, -, -, rfl⟩⟩ := hedge
  · simp
  · simp
  · obtain ⟨i, -, hexec⟩ | ⟨code, -, rfl⟩ := accept_cases hacc
    · obtain ⟨hhost, -⟩ := exec_frame hexec
      simp [hhost]
    · simp [raiseIllegal_frame]
  · simp

/-- A step without reset accepts the word it transfers, if any (R70, R253). -/
theorem step_accepts {s t : State} (h : step s = .next t) (hnot : ¬ s.resetsNext) :
    AcceptsInOrder s.transfersNext.toList s t := by
  cases step_effect h with
  | hardReset u hr _ _ => exact absurd hr hnot
  | quiet _ htn hsame => rw [htn]; exact .nil hsame
  | legal w i u _ htn hd hsame hexec =>
    rw [htn]
    exact .cons hsame (by rwa [accept_legal hd]) (.nil (.refl t))
  | illegal w code u _ htn hd hsame ht =>
    rw [htn]
    exact .cons hsame (by rw [accept_illegal hd, ht]) (.nil (.refl t))

/-- A run without reset accepts the words it transfers, in order (R253). -/
theorem runSteps_accepts {n : Nat} {s t : State} (hrst : ∀ d ∈ s.host, d.rstN = true) (h : runSteps n s = .next t) :
    AcceptsInOrder (acceptedWords n s) s t := by
  induction n generalizing s with
  | zero =>
    cases h
    exact .nil (.refl t)
  | succ n ih =>
    have hnot : ¬ s.resetsNext := by
      rintro ⟨d, rest, hh, hr⟩
      simp [hrst d (by simp [hh])] at hr
    rw [runSteps] at h
    rw [acceptedWords]
    cases hstep : step s with
    | next u =>
      rw [hstep] at h
      have hrst' : ∀ d ∈ u.host, d.rstN = true := fun d hd => hrst d (List.mem_of_mem_tail (step_host hstep ▸ hd))
      exact (step_accepts hstep hnot).append (ih hrst' h)
    | fault r => cases r
    | refused r => simp [hstep] at h

/-- With no byte waiting in either state, the same machine is observed the same (R36, R256). -/
theorem SameMachine.observation_eq {s t : State} (h : SameMachine s t) (hs : s.outq = []) (ht : t.outq = []) :
    observation s = observation t := by
  have htaken : t.taken = s.taken := by simpa [hs, ht] using h.bytes
  rw [observation, observation, statusByte, statusByte, absorbingBit_of_idle hs, absorbingBit_of_idle ht, busy, busy,
    hs, ht, h.engine, h.err, h.errCode, htaken]

theorem outq_of_runEnded {s : State} (h : runEnded s = true) : s.outq = [] := by
  simp only [runEnded, Bool.and_eq_true, List.isEmpty_iff] at h
  obtain ⟨-, hq⟩ := h
  exact hq

/-! The work of a command -/

/-- What one shuffle adds to a tally (R112). -/
def Work.plusShuffle (w : Work) : Work := w.plus 1536 256

theorem countedShuffle_work (c : Counted) : (countedShuffle c).work = c.work.plusShuffle := by
  rw [countedShuffle_eq, Config.whipRounds_eq, Config.pairCount_eq]
  rfl

theorem countedRoom_work (c : Counted) :
    (countedRoom c).work = if c.engine.a.val = 128 then c.work.plusShuffle else c.work := by
  rw [countedRoom, apply_ite Counted.work, countedShuffle_work]

theorem countedFinish_work (c : Counted) :
    (countedFinish c).work = if c.engine.a.val > 0 then c.work.plusShuffle else c.work := by
  rw [countedFinish, apply_ite Counted.work, countedShuffle_work]
  simp [absorbing]

/-- absorb_nibble of each nibble, counted (R104). -/
def countedNibbles : List Nibble → Counted → Counted
  | [], c => c
  | x :: xs, c => countedNibbles xs (countedNibble x c)

/-- Absorbing bytes is absorbing their nibbles (R105). -/
theorem countedBytes_eq_countedNibbles (bytes : List Byte) (c : Counted) :
    countedBytes bytes c = countedNibbles (nibblesOf bytes) c := by
  induction bytes generalizing c with
  | nil => rfl
  | cons b bs ih => exact ih _

theorem countedNibble_a (x : Nibble) (c : Counted) :
    (countedNibble x c).engine.a.val = if c.engine.a.val = 128 then 1 else c.engine.a.val + 1 := by
  rw [countedNibble_engine, absorbNibble_a, countNibble_makeRoom]

/-- Up to 128 nibbles cost one shuffle when they do not all find room, and none when they do: after a shuffle there is
room for the rest (R104, R261). -/
theorem countedNibbles_work (xs : List Nibble) {c : Counted} (hlen : xs.length ≤ 128) :
    (countedNibbles xs c).work = if 128 < c.engine.a.val + xs.length then c.work.plusShuffle else c.work := by
  induction xs generalizing c with
  | nil =>
    have ha := c.engine.a.isLt
    rw [List.length_nil, if_neg (by omega)]
    rfl
  | cons x xs ih =>
    rw [List.length_cons] at hlen ⊢
    rw [countedNibbles, ih (by omega), countedNibble_a, countedNibble_work, countedRoom_work]
    by_cases hfull : c.engine.a.val = 128
    · rw [if_pos hfull, if_pos hfull, if_neg (by omega), if_pos (by omega)]
    · rw [if_neg hfull, if_neg hfull, Nat.add_assoc, Nat.add_comm 1]

/-- Up to 64 bytes cost one shuffle when their nibbles do not all find room, and none when they do (R105, R261). -/
theorem countedBytes_work (bytes : List Byte) {c : Counted} (hlen : 2 * bytes.length ≤ 128) :
    (countedBytes bytes c).work =
      if 128 < c.engine.a.val + 2 * bytes.length then c.work.plusShuffle else c.work := by
  rw [← nibblesOf_length] at hlen ⊢
  rw [countedBytes_eq_countedNibbles, countedNibbles_work _ hlen]

/-- n drips are n rounds, 3n nested reads and n final reads (R112). -/
theorem countedDrips_eq (n : Nat) (c : Counted) :
    countedDrips n c =
      { engine := dripOne^[n] c.engine
        work := { c.work with
          rounds := c.work.rounds + n
          nestedReads := c.work.nestedReads + 3 * n
          finalReads := c.work.finalReads + n } } := by
  induction n generalizing c with
  | zero => rfl
  | succ n ih =>
    rw [countedDrips, ih, countedDrip_eq, Function.iterate_succ_apply, Nat.mul_succ]
    simp only [Nat.add_assoc, Nat.add_comm 1, Nat.add_comm 3]

/-- With ERR = 0 the counted command leaves the engine the command itself leaves (R112). -/
theorem countedCommand_engine {i : Instr} {s t : State} (herr : s.err = false) (h : exec i s = .next t) (w : Work) :
    (countedCommand i { engine := s.engine, work := w }).engine = t.engine := by
  cases i with
  | reset => cases h; rfl
  | absorb b => rw [exec_absorb_engine herr (.inl ⟨b, rfl, rfl⟩) h, countedCommand, countedBytes_engine]
  | absorbStop => cases h; rw [unlessHeld_clear _ _ herr, countedCommand, countedStop_engine]
  | absorbNumber n => rw [exec_absorb_engine herr (.inr ⟨n, rfl, rfl⟩) h, countedCommand, countedBytes_engine]
  | squeeze n =>
    obtain ⟨outq, rfl⟩ := exec_squeeze_engine herr (.inl rfl) h
    rw [countedCommand, countedDrips_eq, countedFinish_engine]
  | squeezeXor d =>
    obtain ⟨outq, rfl⟩ := exec_squeeze_engine herr (.inr ⟨rfl, d, rfl⟩) h
    rw [countedCommand, countedDrip_engine, countedFinish_engine]
    rfl

/-- A number one command word can spell has at most four bytes (R132, R261). -/
theorem length_numberBytes_le_four {n : Nat} (hn : n < 2 ^ 32) : (numberBytes n).length ≤ 4 := by
  have hlog : Nat.log 256 n < 4 := Nat.log_lt_of_lt_pow' (by decide) (by omega)
  rw [length_numberBytes]
  omega

/-! The statements -/

/-- Settles O15: the edge is the hardware reset, which writes the canonical engine, no error and no byte. -/
theorem hardwareResetRestoresEverything : Obligations.HardwareResetRestoresEverything := fun s d rest hh hr =>
  ⟨hardReset (beginEdge d rest s), step_eq_hardReset hh hr, Memory.read_nil, rfl, rfl, rfl, rfl, rfl, rfl, rfl, rfl,
    rfl, statusByte_canonical rfl rfl rfl rfl, beginEdge_host s d rest, beginEdge_taken s d rest⟩

/-- Settles O22: each run is, as a machine, its words accepted in order from the common state. -/
theorem outputDoesNotDependOnWhenItIsTaken : Obligations.OutputDoesNotDependOnWhenItIsTaken := by
  intro s t₁ t₂ h₁ h₂ n₁ n₂ hrst₁ hrst₂ hrun₁ hrun₂ hwords
  have hfirst := runSteps_accepts hrst₁ hrun₁
  have hsecond := runSteps_accepts hrst₂ hrun₂
  rw [hwords] at hfirst
  have hstart : SameMachine { s with host := h₂ } { s with host := h₁ } := ⟨rfl, rfl, rfl, rfl⟩
  have hsame : SameMachine t₂ t₁ := hsecond.sameMachine hfirst hstart
  exact ⟨hsame.engine, hsame.err, hsame.errCode, hsame.bytes, fun hend₁ hend₂ =>
    hsame.symm.observation_eq (outq_of_runEnded hend₁) (outq_of_runEnded hend₂)⟩

/-- Settles O54: the tallies of the room check and of the phase check, with the drips of a squeeze; absorbed nibbles
cost at most one shuffle. -/
theorem workOfOneCommandIsBounded : Obligations.WorkOfOneCommandIsBounded := by
  refine ⟨fun i s w herr => ?_, fun e => ⟨rfl, fun b => ?_, ?_, fun n hn => ?_, fun n => ?_, fun d => ?_,
    fun bytes hroom => ?_⟩⟩
  · obtain ⟨t, ht⟩ := exec_next i s
    exact ⟨t, ht, countedCommand_engine herr ht w⟩
  · have hiff : 128 < e.a.val + 2 * [b].length ↔ 127 ≤ e.a.val := by rw [List.length_singleton]; omega
    exact (countedBytes_work [b] (by simp)).trans (if_congr hiff rfl rfl)
  · exact countedRoom_work _
  · have hlen := length_numberBytes_le_four hn
    exact ⟨hlen, countedBytes_work _ (by omega)⟩
  · rw [countedCommand, countedDrips_eq, countedFinish_work]
    split <;> simp [Work.plusShuffle, Work.plus, Work.zero]
  · rw [countedCommand, countedDrip_eq, countedFinish_work]
    split <;> simp [Work.plusShuffle, Work.plus, Work.zero]
  · exact (countedBytes_work bytes (by omega)).trans (if_neg (by dsimp only; omega))

end Sys2Proof.Machine
end
